-- ==== Sys2Proof/Word.lean ====
section
/-! DEFINITION. The word types of the c8rs execute unit (spec 00_scope.md R5) and the name of the flag register. -/

namespace Sys2Proof

/-- A memory byte, a general register, a timer (00_scope.md R5: REG_WIDTH, TIMER_WIDTH). -/
abbrev Byte := BitVec 8

/-- An instruction word, pc, I, sp (00_scope.md R5: OPCODE_WIDTH, PC_WIDTH, I_WIDTH, SP_WIDTH). -/
abbrev Word := BitVec 16

/-- A 12-bit address operand NNN (30_encoding.md R72). -/
abbrev Addr12 := BitVec 12

/-- A register index, 0 to 15: an index outside cannot be encoded (10_state.md R11). -/
abbrev Reg := Fin 16

/-- A sprite's row count N, 0 to 15 (30_encoding.md R72). -/
abbrev RowCount := Fin 16

/-- VF, the flag register: V[15] (10_state.md R12). -/
abbrev VF : Reg := 15

/-- V0, the index register of JP V0, NNN (40_control.md R110). -/
abbrev V0 : Reg := 0

end Sys2Proof
end

