-- ==== Sys2Proof/Machine/Flags.lean ====
section
/-! DEFINITION. Every flag the block computes into VF (10_state.md R12): carry, the strict comparisons and the bits
shifted out. The sixth, DRW's collision, is the rasterizer's (43_display.md R163). -/

namespace Sys2Proof.Machine

/-- `bool(c)` as a byte: 1 if the condition holds, else 0 (00_scope.md, notation). -/
def flagByte (c : Bool) : Byte := if c then 1 else 0

/-- ADD Vx, Vy: 1 iff the exact sum is 256 or more (41_alu.md R126). -/
def carryOut (a b : Byte) : Bool := decide (256 ≤ a.toNat + b.toNat)

/-- SUB and SUBN: strictly greater, so 0 for equal operands (41_alu.md R127, R129, R131). -/
def strictlyGreater (a b : Byte) : Bool := decide (b.toNat < a.toNat)

/-- SHR: the source's original bit 0 (41_alu.md R128). -/
def lowBitOut (b : Byte) : Bool := b.getLsbD 0

/-- SHL: the source's original bit 7 (41_alu.md R130). -/
def highBitOut (b : Byte) : Bool := b.getLsbD 7

end Sys2Proof.Machine
end

