-- ==== Sys2Proof/Config.lean ====
section
/-! DEFINITION. What an implementation of the block fixes (spec 00_scope.md R5) and the free values of a memory fault
(60_exceptions.md R202). An `opaque` constant has no body: no proof can see its value. -/

namespace Sys2Proof.Config

/-- MEM_SIZE: 4096 bytes, addresses 0x000–0xFFF (00_scope.md R5). -/
def memSize : Nat := 0x1000

/-- PROG_BASE: the reset pc and the ROM's load address (00_scope.md R5, 70_reset_and_hazards.md R232). -/
def progBase : Nat := 0x200

/-- STACK_INIT: the reset sp (00_scope.md R5). -/
def stackInit : Nat := 0x1FE

/-- STACK_FRAME: the bytes of one stack frame (00_scope.md R5). -/
def stackFrame : Nat := 2

/-- FONT_SIZE: 16 glyphs of 5 bytes (00_scope.md R5). -/
def fontSize : Nat := 80

/-- The bytes of one glyph (20_memory.md R49). -/
def glyphSize : Nat := 5

/-- FONT_BASE, OPEN: 0x000 ≤ FONT_BASE and FONT_BASE + 80 ≤ 0x200, that is at most 0x1B0 = 432 (00_scope.md R5).
DESIGN CHOICE (log 1): an opaque constant, so that a claim holds for every admitted base. -/
opaque fontBase : Fin 433

/-- FONT_DATA, a parameter (00_scope.md R5; 93_implementation_defined.md U6): the 80 glyph bytes, an opaque constant, so
that a claim holds for every font. The default is `Machine.defaultFontData` (log 2). -/
opaque fontData : Vector Byte 80

/-- IPS's default, the host's pacing rate; no rule of the block depends on it (00_scope.md R5, 60_exceptions.md R213). -/
def defaultIps : Nat := 10

/-- TIMER_AGENT, OPEN (44_timers_stubs.md R183): whether an agent outside the block may write the timers. It is an
argument of the transactions (log 10). -/
inductive TimerAgent where
  /-- Nothing else writes DT or ST, and the `timer_write` port does not exist (the spec's default). -/
  | absent
  /-- An outside agent may issue `timer_write(dt, st)` between any two steps. -/
  | external
  deriving DecidableEq, Repr

/-! The free values of 60_exceptions.md R202 (log 5): what each state element but FAULT and pc holds after the n-th
memory fault. -/

/-- The general registers after the n-th memory fault. -/
opaque faultV : Nat → Vector Byte 16
/-- I after the n-th memory fault. -/
opaque faultI : Nat → Word
/-- sp after the n-th memory fault. -/
opaque faultSp : Nat → Word
/-- DT after the n-th memory fault. -/
opaque faultDT : Nat → Byte
/-- ST after the n-th memory fault. -/
opaque faultST : Nat → Byte
/-- The framebuffer, its 32 rows of 64 cells, after the n-th memory fault. -/
opaque faultFb : Nat → Vector (Vector Bool 64) 32
/-- The memory byte at an address after the n-th memory fault. -/
opaque faultByte : Nat → Nat → Byte
/-- HALT after the n-th memory fault. -/
opaque faultHALT : Nat → Bool

end Sys2Proof.Config
end

