-- ==== Sys2Proof/Syntax.lean ====
section
/-! DEFINITION. The instructions: one constructor per row of spec/opcode_table.json (30_encoding.md R73), named after
the source's variants (00_scope.md R7). Operand types are those of 30_encoding.md R72. -/

namespace Sys2Proof

/-- The 35 forms and Unknown. The operands stand in the order of the mnemonic. -/
inductive Instr where
  /-- SYS NNN: 0NNN but for 00E0 and 00EE (R102). -/
  | sys (nnn : Addr12)
  /-- CLS: 00E0 (R167). -/
  | cls
  /-- RET: 00EE (R103). -/
  | ret
  /-- JP NNN: 1NNN (R104). -/
  | jmp (nnn : Addr12)
  /-- CALL NNN: 2NNN (R105). -/
  | call (nnn : Addr12)
  /-- SE Vx, NN: 3XNN (R106). -/
  | skipEqImm (x : Reg) (nn : Byte)
  /-- SNE Vx, NN: 4XNN (R107). -/
  | skipNeImm (x : Reg) (nn : Byte)
  /-- SE Vx, Vy: 5XY0 (R108). -/
  | skipEqReg (x y : Reg)
  /-- LD Vx, NN: 6XNN (R120). -/
  | ldImm (x : Reg) (nn : Byte)
  /-- ADD Vx, NN: 7XNN (R121). -/
  | addImm (x : Reg) (nn : Byte)
  /-- LD Vx, Vy: 8XY0 (R122). -/
  | ldReg (x y : Reg)
  /-- OR Vx, Vy: 8XY1 (R123). -/
  | or (x y : Reg)
  /-- AND Vx, Vy: 8XY2 (R124). -/
  | and (x y : Reg)
  /-- XOR Vx, Vy: 8XY3 (R125). -/
  | xor (x y : Reg)
  /-- ADD Vx, Vy: 8XY4 (R126). -/
  | addReg (x y : Reg)
  /-- SUB Vx, Vy: 8XY5 (R127). -/
  | subReg (x y : Reg)
  /-- SHR Vx, Vy: 8XY6 (R128). -/
  | shr (x y : Reg)
  /-- SUBN Vx, Vy: 8XY7 (R129). -/
  | subN (x y : Reg)
  /-- SHL Vx, Vy: 8XYE (R130). -/
  | shl (x y : Reg)
  /-- SNE Vx, Vy: 9XY0 (R109). -/
  | skipNeReg (x y : Reg)
  /-- LD I, NNN: ANNN (R140). -/
  | ldI (nnn : Addr12)
  /-- JP V0, NNN: BNNN (R110). -/
  | jmpV0 (nnn : Addr12)
  /-- RND Vx, NN: CXNN, inert (R184). -/
  | rnd (x : Reg) (nn : Byte)
  /-- DRW Vx, Vy, N: DXYN (R166). -/
  | drw (x y : Reg) (n : RowCount)
  /-- SKP Vx: EX9E, inert (R185). -/
  | skipKey (x : Reg)
  /-- SKNP Vx: EXA1, inert (R186). -/
  | skipNotKey (x : Reg)
  /-- LD Vx, DT: FX07 (R180). -/
  | ldVxDt (x : Reg)
  /-- LD Vx, K: FX0A, inert (R187). -/
  | ldKey (x : Reg)
  /-- LD DT, Vx: FX15 (R181). -/
  | ldDtVx (x : Reg)
  /-- LD ST, Vx: FX18 (R182). -/
  | ldStVx (x : Reg)
  /-- ADD I, Vx: FX1E (R141). -/
  | addI (x : Reg)
  /-- LD F, Vx: FX29 (R142). -/
  | ldFont (x : Reg)
  /-- LD B, Vx: FX33 (R143). -/
  | bcd (x : Reg)
  /-- LD [I], Vx: FX55 (R144). -/
  | storeRegs (x : Reg)
  /-- LD Vx, [I]: FX65 (R145). -/
  | loadRegs (x : Reg)
  /-- Unknown(w), written DW 0xHHHH: every word no form matches (R188). -/
  | unknown (w : Word)
  deriving DecidableEq, Repr

end Sys2Proof
end

