-- ==== Sys2Proof/WellFormed.lean ====
section
/-! DEFINITION. Which terms of `Instr` a word can stand for: SYS has no operand 0x0E0 or 0x0EE (30_encoding.md R80),
and Unknown carries a word of the unassigned space (R75). Every other operand value is encodable, by its type. -/

namespace Sys2Proof

/-- The words 30_encoding.md R75 lists as Unknown, space by space. Written from R75 and not from the decoder. -/
def unassigned (w : Word) : Bool :=
  let op := w.extractLsb' 12 4
  let n := w.extractLsb' 0 4
  let kk := w.extractLsb' 0 8
  (op == 0x5#4 && n != 0#4)
    || (op == 0x8#4 && [0x8#4, 0x9#4, 0xA#4, 0xB#4, 0xC#4, 0xD#4, 0xF#4].contains n)
    || (op == 0x9#4 && n != 0#4)
    || (op == 0xE#4 && !([0x9E#8, 0xA1#8].contains kk))
    || (op == 0xF#4
        && !([0x07#8, 0x0A#8, 0x15#8, 0x18#8, 0x1E#8, 0x29#8, 0x33#8, 0x55#8, 0x65#8].contains kk))

/-- A term that some word decodes to (30_encoding.md R75, R80). -/
def Instr.wf : Instr → Bool
  | .sys nnn => nnn != 0x0E0#12 && nnn != 0x0EE#12
  | .unknown w => unassigned w
  | .cls | .ret | .jmp _ | .call _ | .skipEqImm _ _ | .skipNeImm _ _ | .skipEqReg _ _ | .ldImm _ _
  | .addImm _ _ | .ldReg _ _ | .or _ _ | .and _ _ | .xor _ _ | .addReg _ _ | .subReg _ _ | .shr _ _
  | .subN _ _ | .shl _ _ | .skipNeReg _ _ | .ldI _ | .jmpV0 _ | .rnd _ _ | .drw _ _ _ | .skipKey _
  | .skipNotKey _ | .ldVxDt _ | .ldKey _ | .ldDtVx _ | .ldStVx _ | .addI _ | .ldFont _ | .bcd _
  | .storeRegs _ | .loadRegs _ => true

end Sys2Proof
end

