-- ==== Sys2Proof/Decode.lean ====
section
/-! DEFINITION. The decoder (30_encoding.md R70 to R76), total on words, and the encoder (R80) written from the same
table R73. A byte sequence too short for a word is rejected by name. -/

namespace Sys2Proof

/-! ## The fields of a word (30_encoding.md R71, R72) -/

/-- X = w[11:8]. -/
def fieldX (w : Word) : Reg := (w.extractLsb' 8 4).toFin

/-- Y = w[7:4]. -/
def fieldY (w : Word) : Reg := (w.extractLsb' 4 4).toFin

/-- N = w[3:0]. -/
def fieldN (w : Word) : RowCount := (w.extractLsb' 0 4).toFin

/-- NN = w[7:0]. -/
def fieldNN (w : Word) : Byte := w.extractLsb' 0 8

/-- NNN = w[11:0]. -/
def fieldNNN (w : Word) : Addr12 := w.extractLsb' 0 12

/-! ## The opcode table (30_encoding.md R73) -/

/-- One row of R73: a word w matches when `w & mask = value`, and then stands for `build w`. -/
structure OpcodeRow where
  mask : Word
  value : Word
  build : Word → Instr

/-- The exact forms, which win over 0NNN (R74). -/
def exactRows : List OpcodeRow :=
  [⟨0xFFFF, 0x00E0, fun _ => .cls⟩, ⟨0xFFFF, 0x00EE, fun _ => .ret⟩]

/-- Row 1: every other 0NNN word (R74). -/
def sysRow : List OpcodeRow := [⟨0xF000, 0x0000, fun w => .sys (fieldNNN w)⟩]

/-- Rows 4 to 10 and 20 to 24: classes 1 to 7 and 9 to D. -/
def classRows : List OpcodeRow :=
  [⟨0xF000, 0x1000, fun w => .jmp (fieldNNN w)⟩,
   ⟨0xF000, 0x2000, fun w => .call (fieldNNN w)⟩,
   ⟨0xF000, 0x3000, fun w => .skipEqImm (fieldX w) (fieldNN w)⟩,
   ⟨0xF000, 0x4000, fun w => .skipNeImm (fieldX w) (fieldNN w)⟩,
   ⟨0xF00F, 0x5000, fun w => .skipEqReg (fieldX w) (fieldY w)⟩,
   ⟨0xF000, 0x6000, fun w => .ldImm (fieldX w) (fieldNN w)⟩,
   ⟨0xF000, 0x7000, fun w => .addImm (fieldX w) (fieldNN w)⟩,
   ⟨0xF00F, 0x9000, fun w => .skipNeReg (fieldX w) (fieldY w)⟩,
   ⟨0xF000, 0xA000, fun w => .ldI (fieldNNN w)⟩,
   ⟨0xF000, 0xB000, fun w => .jmpV0 (fieldNNN w)⟩,
   ⟨0xF000, 0xC000, fun w => .rnd (fieldX w) (fieldNN w)⟩,
   ⟨0xF000, 0xD000, fun w => .drw (fieldX w) (fieldY w) (fieldN w)⟩]

/-- Rows 11 to 19: class 8. -/
def aluRows : List OpcodeRow :=
  [⟨0xF00F, 0x8000, fun w => .ldReg (fieldX w) (fieldY w)⟩,
   ⟨0xF00F, 0x8001, fun w => .or (fieldX w) (fieldY w)⟩,
   ⟨0xF00F, 0x8002, fun w => .and (fieldX w) (fieldY w)⟩,
   ⟨0xF00F, 0x8003, fun w => .xor (fieldX w) (fieldY w)⟩,
   ⟨0xF00F, 0x8004, fun w => .addReg (fieldX w) (fieldY w)⟩,
   ⟨0xF00F, 0x8005, fun w => .subReg (fieldX w) (fieldY w)⟩,
   ⟨0xF00F, 0x8006, fun w => .shr (fieldX w) (fieldY w)⟩,
   ⟨0xF00F, 0x8007, fun w => .subN (fieldX w) (fieldY w)⟩,
   ⟨0xF00F, 0x800E, fun w => .shl (fieldX w) (fieldY w)⟩]

/-- Rows 25 to 35: classes E and F. -/
def miscRows : List OpcodeRow :=
  [⟨0xF0FF, 0xE09E, fun w => .skipKey (fieldX w)⟩,
   ⟨0xF0FF, 0xE0A1, fun w => .skipNotKey (fieldX w)⟩,
   ⟨0xF0FF, 0xF007, fun w => .ldVxDt (fieldX w)⟩,
   ⟨0xF0FF, 0xF00A, fun w => .ldKey (fieldX w)⟩,
   ⟨0xF0FF, 0xF015, fun w => .ldDtVx (fieldX w)⟩,
   ⟨0xF0FF, 0xF018, fun w => .ldStVx (fieldX w)⟩,
   ⟨0xF0FF, 0xF01E, fun w => .addI (fieldX w)⟩,
   ⟨0xF0FF, 0xF029, fun w => .ldFont (fieldX w)⟩,
   ⟨0xF0FF, 0xF033, fun w => .bcd (fieldX w)⟩,
   ⟨0xF0FF, 0xF055, fun w => .storeRegs (fieldX w)⟩,
   ⟨0xF0FF, 0xF065, fun w => .loadRegs (fieldX w)⟩]

/-- Rows 4 to 35, of which at most one matches a word (R74). -/
def disjointRows : List OpcodeRow := classRows ++ aluRows ++ miscRows

/-- All 35 rows in the order of R74's procedure. -/
def opcodeRows : List OpcodeRow := exactRows ++ sysRow ++ disjointRows

/-- Whether a word matches a row (R73). -/
def OpcodeRow.hits (r : OpcodeRow) (w : Word) : Bool := w &&& r.mask == r.value

/-- The decoder of 30_encoding.md R74: total, with `unknown` for every word no row matches. -/
def decode (w : Word) : Instr :=
  match opcodeRows.find? (fun r => r.hits w) with
  | some r => r.build w
  | none => .unknown w

/-! ## The encoder (30_encoding.md R80: the operand fields placed into the form's match value) -/

/-- op-NNN: the address in w[11:0]. -/
def placeNNN (value : Word) (nnn : Addr12) : Word := value ||| nnn.setWidth 16

/-- op-X: the register index in w[11:8]. -/
def placeX (value : Word) (x : Reg) : Word := value ||| ((BitVec.ofFin (w := 4) x).setWidth 16 <<< 8)

/-- op-X-NN: X in w[11:8], NN in w[7:0]. -/
def placeXNN (value : Word) (x : Reg) (nn : Byte) : Word := placeX value x ||| nn.setWidth 16

/-- op-X-Y: X in w[11:8], Y in w[7:4]. -/
def placeXY (value : Word) (x y : Reg) : Word :=
  placeX value x ||| ((BitVec.ofFin (w := 4) y).setWidth 16 <<< 4)

/-- op-X-Y-N: X in w[11:8], Y in w[7:4], N in w[3:0]. -/
def placeXYN (value : Word) (x y : Reg) (n : RowCount) : Word :=
  placeXY value x y ||| (BitVec.ofFin (w := 4) n).setWidth 16

/-- The word of an instruction (R73, R80). -/
def encode : Instr → Word
  | .sys nnn => placeNNN 0x0000 nnn
  | .cls => 0x00E0
  | .ret => 0x00EE
  | .jmp nnn => placeNNN 0x1000 nnn
  | .call nnn => placeNNN 0x2000 nnn
  | .skipEqImm x nn => placeXNN 0x3000 x nn
  | .skipNeImm x nn => placeXNN 0x4000 x nn
  | .skipEqReg x y => placeXY 0x5000 x y
  | .ldImm x nn => placeXNN 0x6000 x nn
  | .addImm x nn => placeXNN 0x7000 x nn
  | .ldReg x y => placeXY 0x8000 x y
  | .or x y => placeXY 0x8001 x y
  | .and x y => placeXY 0x8002 x y
  | .xor x y => placeXY 0x8003 x y
  | .addReg x y => placeXY 0x8004 x y
  | .subReg x y => placeXY 0x8005 x y
  | .shr x y => placeXY 0x8006 x y
  | .subN x y => placeXY 0x8007 x y
  | .shl x y => placeXY 0x800E x y
  | .skipNeReg x y => placeXY 0x9000 x y
  | .ldI nnn => placeNNN 0xA000 nnn
  | .jmpV0 nnn => placeNNN 0xB000 nnn
  | .rnd x nn => placeXNN 0xC000 x nn
  | .drw x y n => placeXYN 0xD000 x y n
  | .skipKey x => placeX 0xE09E x
  | .skipNotKey x => placeX 0xE0A1 x
  | .ldVxDt x => placeX 0xF007 x
  | .ldKey x => placeX 0xF00A x
  | .ldDtVx x => placeX 0xF015 x
  | .ldStVx x => placeX 0xF018 x
  | .addI x => placeX 0xF01E x
  | .ldFont x => placeX 0xF029 x
  | .bcd x => placeX 0xF033 x
  | .storeRegs x => placeX 0xF055 x
  | .loadRegs x => placeX 0xF065 x
  | .unknown w => w

/-! ## Bytes (30_encoding.md R70: the word is big-endian, the high byte first) -/

/-- The high byte of a word, at the lower address (20_memory.md R42). -/
def highByte (w : Word) : Byte := w.extractLsb' 8 8

/-- The low byte of a word, at the higher address (20_memory.md R42). -/
def lowByte (w : Word) : Byte := w.extractLsb' 0 8

/-- The word of two bytes, the high byte first (20_memory.md R42). -/
def wordOfBytes (hi lo : Byte) : Word := hi ++ lo

/-- Why a byte sequence holds no instruction. -/
inductive DecodeReject where
  /-- Fewer than the two bytes of a word (30_encoding.md R70). -/
  | truncated
  deriving DecidableEq, Repr

/-- The first instruction of a byte sequence and the bytes after it (log 20). -/
def decodeBytes : List Byte → Except DecodeReject (Instr × List Byte)
  | hi :: lo :: rest => .ok (decode (wordOfBytes hi lo), rest)
  | _ => .error .truncated

/-- An instruction's two bytes, in memory order. -/
def encodeBytes (i : Instr) : List Byte := [highByte (encode i), lowByte (encode i)]

/-- The instruction the decoder reads from a word of `spec/opcode_table.json`, whose bit 0 is w[0] of the one word
every instruction has (30_encoding.md R70). No instruction is longer than 16 bits. -/
def decodeTableWord (nbits w : Nat) : Option Instr :=
  let word := BitVec.ofNat 16 (w % 2 ^ nbits)
  if 16 < nbits then none
  else
    match decodeBytes [highByte word, lowByte word] with
    | .ok (i, []) => some i
    | _ => none

end Sys2Proof
end

