-- ==== Sys2Proof/Machine/Memory.lean ====
section
/-! DEFINITION. The 4096-byte memory (20_memory.md R40 to R48) as a list of cells in one canonical form: addresses
strictly rising and in range, and no cell equal to what an unlisted address reads as. -/

namespace Sys2Proof.Machine

/-- The memory (10_state.md R20). -/
abbrev Memory := List Host.Cell

/-- Whether a byte address is in range: 0 ≤ a ≤ 0xFFF (20_memory.md R44). -/
def inRange (a : Nat) : Bool := decide (a < Config.memSize)

/-- The power-on contents under a FONT_BASE and a FONT_DATA: the font there and 0x00 elsewhere (10_state.md R28). The
program region is tested first, so that it does not depend on the two parameters. -/
def Memory.powerOnByte (base : Nat) (font : Vector Byte 80) (a : Nat) : Byte :=
  if Config.progBase ≤ a then 0
  else if base ≤ a then font.toList.getD (a - base) 0
  else 0

/-- What an address no cell lists reads as: the power-on contents under the machine's parameters (log 1, 2, 4). -/
def Memory.unlisted (a : Nat) : Byte := Memory.powerOnByte Config.fontBase.val Config.fontData a

/-- `MemRead(a, 1)` for an address in range (20_memory.md R41). -/
def Memory.read : Memory → Nat → Byte
  | [], a => Memory.unlisted a
  | (k, b) :: m, a => if k = a then b else Memory.read m a

/-- The cells of every other address. -/
def Memory.without (m : Memory) (a : Nat) : Memory := m.filter (fun c => c.1 != a)

/-- A new cell, before the first cell of a higher address. -/
def Memory.place (a : Nat) (b : Byte) : Memory → Memory
  | [] => [(a, b)]
  | c :: m => if c.1 < a then c :: Memory.place a b m else (a, b) :: c :: m

/-- `MemWrite(a, 1, b)` (20_memory.md R41), keeping the canonical form. A byte out of range is never written (R44). -/
def Memory.write (m : Memory) (a : Nat) (b : Byte) : Memory :=
  if inRange a then
    if b = Memory.unlisted a then m.without a else Memory.place a b (m.without a)
  else m

/-- The n bytes at a, a+1, …, in ascending order (20_memory.md R56). -/
def Memory.readBytes (m : Memory) (a : Nat) : Nat → List Byte
  | 0 => []
  | n + 1 => m.read a :: Memory.readBytes m (a + 1) n

/-- The bytes written at a, a+1, …, in ascending order (20_memory.md R56). -/
def Memory.writeBytes (m : Memory) (a : Nat) : List Byte → Memory
  | [] => m
  | b :: bs => Memory.writeBytes (m.write a b) (a + 1) bs

/-- `MemRead(a, 2)`, big-endian (20_memory.md R42). -/
def Memory.readWord (m : Memory) (a : Nat) : Word := wordOfBytes (m.read a) (m.read (a + 1))

/-- `MemWrite(a, 2, w)`, big-endian (20_memory.md R42). -/
def Memory.writeWord (m : Memory) (a : Nat) (w : Word) : Memory :=
  m.writeBytes a [highByte w, lowByte w]

/-- The memory whose every byte in range is given by f. It is never run (only a fault's free values use it), and so it
is irreducible. -/
@[irreducible] def Memory.ofBytes (f : Nat → Byte) : Memory :=
  (List.range Config.memSize).filterMap
    (fun a => if f a = Memory.unlisted a then none else some (a, f a))

/-- The canonical form: addresses strictly rising and in range, no cell equal to what an unlisted address reads as. -/
def Memory.wf : Memory → Bool
  | [] => true
  | (k, b) :: m => inRange k && b != Memory.unlisted k && m.all (fun c => decide (k < c.1)) && Memory.wf m

/-- The first out-of-range address among a, a+1, …, a+n-1 (20_memory.md R43, R44; 60_exceptions.md R203). -/
def firstOutOfRange (a : Nat) : Nat → Option Nat
  | 0 => none
  | n + 1 => if inRange a then firstOutOfRange (a + 1) n else some a

end Sys2Proof.Machine
end

