-- ==== Sys2Proof/Machine/State.lean ====
section
/-! DEFINITION. The block's state (10_state.md R10 to R22), its power-on value (R28), and the reasons a step could stop
the model. -/

namespace Sys2Proof.Machine

/-- fb: 32 rows of 64 one-bit cells, `fb[y][x]` (10_state.md R19). -/
abbrev Framebuffer := Vector (Vector Bool 64) 32

/-- The framebuffer with every cell 0. -/
def Framebuffer.clear : Framebuffer := Vector.replicate 32 (Vector.replicate 64 false)

/-- FAULT.cause (60_exceptions.md R201; log 18). -/
inductive FaultCause where
  /-- 0: the instruction fetch. -/
  | fetch
  /-- 1: Push or Pop. -/
  | stack
  /-- 2: an I-relative access. -/
  | data
  /-- 3: the ROM write of `init`. -/
  | load
  deriving DecidableEq, Repr

/-- FAULT (10_state.md R22). -/
structure FaultStatus where
  valid : Bool
  cause : FaultCause
  addr : BitVec 17
  deriving DecidableEq, Repr

/-- Everything the spec gives the block (10_state.md R10 to R22), under the spec's names. -/
structure State where
  /-- V0–VF (R10); VF = V[15] is the flag register (R12). -/
  V : Vector Byte 16
  /-- The program counter (R13). -/
  pc : Word
  /-- The index register (R15). -/
  I : Word
  /-- The stack pointer (R16). -/
  sp : Word
  /-- The delay timer (R17). -/
  DT : Byte
  /-- The sound timer (R18). -/
  ST : Byte
  /-- The framebuffer (R19). -/
  fb : Framebuffer
  /-- The memory (R20). -/
  mem : Memory
  /-- The halt latch (R21). -/
  HALT : Bool
  /-- The fault status (R22). -/
  FAULT : FaultStatus
  /-- The model's own: how many memory faults have taken free values (log 12). No rule of the spec names it. -/
  freeIx : Nat
  deriving DecidableEq, Repr

/-- Reasons to stop with a fault: NONE. The block's only exception, MemFault, is state of the block (FAULT, the fault
stop of 60_exceptions.md R202) and so a next state (log 7). Safe: there is nothing a run could stop on. -/
inductive Fault where
  deriving DecidableEq, Repr

/-- Reasons to refuse. -/
inductive Refusal where
  /-- Raised by `exec`'s arm of an instruction without a meaning. No arm is one. Safe. -/
  | notModelled (mnemonic : String)
  /-- Raised by the `timer_write` transaction when TIMER_AGENT = `absent`: the port does not exist
  (44_timers_stubs.md R183). Never raised by a step. Safe: nothing happens in the block. -/
  | noTimerPort
  deriving DecidableEq, Repr

/-- FAULT at power-on (10_state.md R28). -/
def FaultStatus.none : FaultStatus := { valid := false, cause := .fetch, addr := 0 }

/-- The power-on state (10_state.md R28): `init` with an empty ROM. Memory lists nothing, and so reads as FONT_DATA at
FONT_BASE and 0x00 elsewhere. -/
def State.reset : State :=
  { V := Vector.replicate 16 0
    pc := 0x200
    I := 0
    sp := 0x1FE
    DT := 0
    ST := 0
    fb := Framebuffer.clear
    mem := []
    HALT := false
    FAULT := FaultStatus.none
    freeIx := 0 }

end Sys2Proof.Machine
end

