-- ==== Sys2Proof/Machine/Ops.lean ====
section
/-! DEFINITION. The shared operations: reading and writing registers, committing the next pc (40_control.md R100),
taking a memory fault (60_exceptions.md R202), range-checked access, the stack primitives (20_memory.md R50, R51) and the
fetch. -/

namespace Sys2Proof.Machine

/-- The three outcomes of an instruction. -/
abbrev Result := Host.Outcome State Fault Refusal

/-! ## Registers -/

/-- V[r] (10_state.md R10). -/
def State.getV (s : State) (r : Reg) : Byte := s.V[r]

/-- V[r] <- b (10_state.md R10). -/
def State.setV (s : State) (r : Reg) (b : Byte) : State := { s with V := s.V.set r b }

/-- VF <- bool(c) (10_state.md R12). -/
def State.setFlag (s : State) (c : Bool) : State := s.setV VF (flagByte c)

/-- DT <- b (10_state.md R17). -/
def State.setDT (s : State) (b : Byte) : State := { s with DT := b }

/-- ST <- b (10_state.md R18). -/
def State.setST (s : State) (b : Byte) : State := { s with ST := b }

/-- I <- a number, at I's 16 bits (10_state.md R15). -/
def State.setI (s : State) (a : Nat) : State := { s with I := BitVec.ofNat 16 a }

/-- A new framebuffer (10_state.md R19). -/
def State.setFb (s : State) (fb : Framebuffer) : State := { s with fb := fb }

/-- pc <- target (10_state.md R13). -/
def State.withPc (s : State) (target : Word) : State := { s with pc := target }

/-! ## The end of a step (40_control.md R100) -/

/-- Next(target): pc <- trunc_16(target). -/
def commitNext (target : Nat) (s : State) : Result := .next (s.withPc (BitVec.ofNat 16 target))

/-- Halt: HALT <- 1, and pc keeps the jump's own address. -/
def commitHalt (s : State) : Result := .next { s with HALT := true }

/-- Next(pc + 2), the common case (40_control.md R101). -/
def advance (s : State) : Result := commitNext (s.pc.toNat + 2) s

/-- Next(pc + 4) when the condition holds, else Next(pc + 2) (40_control.md R101). -/
def skipIf (c : Bool) (s : State) : Result :=
  if c then commitNext (s.pc.toNat + 4) s else advance s

/-! ## Taking a memory fault (60_exceptions.md R201, R202) -/

/-- FAULT.cause's two-bit code (60_exceptions.md R201). -/
def FaultCause.code : FaultCause → BitVec 2
  | .fetch => 0
  | .stack => 1
  | .data => 2
  | .load => 3

/-- MemFault(cause, addr): FAULT is set, pc is kept, and every other state element is a free value (R202; log 5). There
is no handler, no vector, no saved context and no return: only `init` leaves the fault stop (R204, 10_state.md R22). -/
def takeMemFault (cause : FaultCause) (addr : Nat) (s : State) : State :=
  { V := Config.faultV s.freeIx
    pc := s.pc
    I := Config.faultI s.freeIx
    sp := Config.faultSp s.freeIx
    DT := Config.faultDT s.freeIx
    ST := Config.faultST s.freeIx
    fb := Config.faultFb s.freeIx
    mem := Memory.ofBytes (Config.faultByte s.freeIx)
    HALT := Config.faultHALT s.freeIx
    FAULT := { valid := true, cause := cause, addr := BitVec.ofNat 17 addr }
    freeIx := s.freeIx + 1 }

/-- An access to the n bytes at a: the first of them out of range raises MemFault and nothing else of the instruction
counts; otherwise `effect` (20_memory.md R44, R56; 60_exceptions.md R203; log 8). -/
def guarded (cause : FaultCause) (a n : Nat) (s : State) (effect : Result) : Result :=
  match firstOutOfRange a n with
  | some bad => .next (takeMemFault cause bad s)
  | none => effect

/-! ## The stack (20_memory.md R50, R51) -/

/-- sp after a Push: down by one frame, saturating at 0 (R50). -/
def spDown (sp : Word) : Word := if 2 ≤ sp.toNat then BitVec.ofNat 16 (sp.toNat - 2) else 0

/-- sp after a Pop: up by one frame, saturating at 0xFFFF (R51). -/
def spUp (sp : Word) : Word := if sp.toNat ≤ 0xFFFD then BitVec.ofNat 16 (sp.toNat + 2) else 0xFFFF

/-- Push(v), the frame in range: write it at sp, then move sp (R50). -/
def pushFrame (v : Word) (s : State) : State :=
  { s with mem := s.mem.writeWord s.sp.toNat v, sp := spDown s.sp }

/-- Pop()'s value, the frame in range: the word at the moved sp (R51). -/
def poppedWord (s : State) : Word := s.mem.readWord (spUp s.sp).toNat

/-- Pop()'s effect: sp moves, and the frame stays in memory (R51, R52). -/
def popFrame (s : State) : State := { s with sp := spUp s.sp }

/-! ## The fetch (40_control.md R100) -/

/-- A step is not taken while HALT = 1 or FAULT.valid = 1 (10_state.md R27). -/
def stopped (s : State) : Bool := s.HALT || s.FAULT.valid

/-- The big-endian word at pc and pc+1, or the first out-of-range address of the two (R100, 60_exceptions.md R201). -/
def fetchWord (s : State) : Except Nat Word :=
  match firstOutOfRange s.pc.toNat 2 with
  | some bad => .error bad
  | none => .ok (s.mem.readWord s.pc.toNat)

/-- s able to fetch: no stop, and pc where a word can be fetched (a pc that none can be fetched from becomes 0x200).
Changes nothing in a state that can fetch (log 11). -/
def readyToFetch (s : State) : State :=
  { s with
    HALT := false
    FAULT := if s.FAULT.valid then FaultStatus.none else s.FAULT
    pc := if s.pc.toNat ≤ 0xFFE then s.pc else 0x200 }

/-- A program word placed where the next fetch reads (log 11). -/
def placeFetchWord (s : State) (w : Word) : State :=
  let r := readyToFetch s
  { r with mem := r.mem.writeWord r.pc.toNat w }

end Sys2Proof.Machine
end

