-- ==== Sys2Proof/Machine/Operands.lean ====
section
/-! DEFINITION. Every operand form (30_encoding.md R72) and addressing mode (42_index_memory.md R146): absolute 12-bit
addresses, the indexed jump's target, the font address, the I-relative base, and the byte sequences the block operations
move. Addresses are exact numbers, never wrapped before the range check (20_memory.md R43). -/

namespace Sys2Proof.Machine

/-- zext_16(NNN), as a number: a jump target or I value (30_encoding.md R72). -/
def absoluteAddr (nnn : Addr12) : Nat := nnn.toNat

/-- JP V0, NNN: NNN + V[0], at most 0x10FE (40_control.md R110). -/
def indexedTarget (nnn : Addr12) (s : State) : Nat := nnn.toNat + (s.getV V0).toNat

/-- The base of an I-relative access: I + k is touched for k below the count (42_index_memory.md R146). -/
def dataAddr (s : State) : Nat := s.I.toNat

/-- LD F, Vx: FONT_BASE + 5 · V[X], the whole register value (42_index_memory.md R142). -/
def fontAddr (v : Byte) : Nat := Config.fontBase.val + Config.glyphSize * v.toNat

/-- LD B, Vx: the hundreds, tens and ones of a byte, in store order (42_index_memory.md R143). -/
def bcdBytes (v : Byte) : List Byte :=
  [BitVec.ofNat 8 (v.toNat / 100), BitVec.ofNat 8 (v.toNat / 10 % 10), BitVec.ofNat 8 (v.toNat % 10)]

/-- LD [I], Vx: how many registers V0..Vx are, X inclusive (42_index_memory.md R144). -/
def blockCount (x : Reg) : Nat := x.val + 1

/-- LD [I], Vx: the values of V0..Vx in register order (42_index_memory.md R144). -/
def blockBytes (x : Reg) (s : State) : List Byte := s.V.toList.take (blockCount x)

/-- LD Vx, [I]: V[k] <- the byte at I + k for k = 0..X; the other registers keep their values (42_index_memory.md R145). -/
def loadBlock (x : Reg) (s : State) : State :=
  { s with V := Vector.ofFn fun k : Reg => if k ≤ x then s.mem.read (dataAddr s + k.val) else s.getV k }

end Sys2Proof.Machine
end

