-- ==== Sys2Proof/Machine/Alu.lean ====
section
/-! DEFINITION. Register loads and the ALU (41_alu.md R120 to R130). Operands are read before any write, V[X] is written
first and VF last, so that VF holds the flag when X = F. -/

namespace Sys2Proof.Machine

/-- The shared ending of the flag-writing instructions: V[X] <- result, then VF <- bool(flag), then Next(pc + 2). -/
def writeResultAndFlag (x : Reg) (result : Byte) (flag : Bool) (s : State) : Result :=
  advance ((s.setV x result).setFlag flag)

/-- LD Vx, NN (41_alu.md R120). -/
def execLdImm (x : Reg) (nn : Byte) (s : State) : Result := advance (s.setV x nn)

/-- ADD Vx, NN: modulo 256, no flag (41_alu.md R121). -/
def execAddImm (x : Reg) (nn : Byte) (s : State) : Result := advance (s.setV x (s.getV x + nn))

/-- LD Vx, Vy (41_alu.md R122). -/
def execLdReg (x y : Reg) (s : State) : Result := advance (s.setV x (s.getV y))

/-- OR Vx, Vy, no flag (41_alu.md R123). -/
def execOr (x y : Reg) (s : State) : Result := advance (s.setV x (s.getV x ||| s.getV y))

/-- AND Vx, Vy, no flag (41_alu.md R124). -/
def execAnd (x y : Reg) (s : State) : Result := advance (s.setV x (s.getV x &&& s.getV y))

/-- XOR Vx, Vy, no flag (41_alu.md R125). -/
def execXor (x y : Reg) (s : State) : Result := advance (s.setV x (s.getV x ^^^ s.getV y))

/-- ADD Vx, Vy: modulo 256, VF the carry (41_alu.md R126). -/
def execAddReg (x y : Reg) (s : State) : Result :=
  writeResultAndFlag x (s.getV x + s.getV y) (carryOut (s.getV x) (s.getV y)) s

/-- SUB Vx, Vy: V[X] − V[Y] modulo 256, VF whether V[X] > V[Y] strictly (41_alu.md R127). -/
def execSubReg (x y : Reg) (s : State) : Result :=
  writeResultAndFlag x (s.getV x - s.getV y) (strictlyGreater (s.getV x) (s.getV y)) s

/-- SHR Vx, Vy: V[Y] >> 1, VF V[Y]'s bit 0 (41_alu.md R128). -/
def execShr (x y : Reg) (s : State) : Result :=
  writeResultAndFlag x (s.getV y >>> 1) (lowBitOut (s.getV y)) s

/-- SUBN Vx, Vy: V[Y] − V[X] modulo 256, VF whether V[Y] > V[X] strictly (41_alu.md R129). -/
def execSubN (x y : Reg) (s : State) : Result :=
  writeResultAndFlag x (s.getV y - s.getV x) (strictlyGreater (s.getV y) (s.getV x)) s

/-- SHL Vx, Vy: V[Y] << 1 modulo 256, VF V[Y]'s bit 7 (41_alu.md R130). -/
def execShl (x y : Reg) (s : State) : Result :=
  writeResultAndFlag x (s.getV y <<< 1) (highBitOut (s.getV y)) s

end Sys2Proof.Machine
end

