-- ==== Sys2Proof/Machine/Control.lean ====
section
/-! DEFINITION. SYS, jumps, calls, returns and skips (40_control.md R102 to R110). -/

namespace Sys2Proof.Machine

/-- SYS NNN: no effect but the advance (40_control.md R102). -/
def execSys (_nnn : Addr12) (s : State) : Result := advance s

/-- RET: Pop, then Next(popped + 2) (40_control.md R103). -/
def execRet (s : State) : Result :=
  guarded .stack (spUp s.sp).toNat Config.stackFrame s
    (commitNext ((poppedWord s).toNat + 2) (popFrame s))

/-- JP NNN: Halt when the target is this very jump's address, else Next(target) (40_control.md R104). -/
def execJmp (nnn : Addr12) (s : State) : Result :=
  if absoluteAddr nnn = s.pc.toNat then commitHalt s else commitNext (absoluteAddr nnn) s

/-- CALL NNN: Push(pc), the CALL's own address, then Next(NNN) (40_control.md R105). -/
def execCall (nnn : Addr12) (s : State) : Result :=
  guarded .stack s.sp.toNat Config.stackFrame s
    (commitNext (absoluteAddr nnn) (pushFrame s.pc s))

/-- SE Vx, NN (40_control.md R106). -/
def execSkipEqImm (x : Reg) (nn : Byte) (s : State) : Result := skipIf (s.getV x == nn) s

/-- SNE Vx, NN (40_control.md R107). -/
def execSkipNeImm (x : Reg) (nn : Byte) (s : State) : Result := skipIf (s.getV x != nn) s

/-- SE Vx, Vy (40_control.md R108). -/
def execSkipEqReg (x y : Reg) (s : State) : Result := skipIf (s.getV x == s.getV y) s

/-- SNE Vx, Vy (40_control.md R109). -/
def execSkipNeReg (x y : Reg) (s : State) : Result := skipIf (s.getV x != s.getV y) s

/-- JP V0, NNN: Next(NNN + V[0]); it never halts (40_control.md R110). -/
def execJmpV0 (nnn : Addr12) (s : State) : Result := commitNext (indexedTarget nnn s) s

end Sys2Proof.Machine
end

