-- ==== Sys2Proof/Machine/Raster.lean ====
section
/-! DEFINITION. The XOR-sprite rasterizer (43_display.md R160 to R165). -/

namespace Sys2Proof.Machine

/-- fb[y][x] (10_state.md R19). -/
def Framebuffer.cell (fb : Framebuffer) (y : Fin 32) (x : Fin 64) : Bool := fb[y][x]

/-- fb[y][x] <- fb[y][x] ^ 1. -/
def Framebuffer.toggle (fb : Framebuffer) (y : Fin 32) (x : Fin 64) : Framebuffer :=
  fb.set y (fb[y].set x (!fb[y][x]))

/-- Bit c of a sprite row from the left: bit 7 is the leftmost pixel, c = 0 (43_display.md R161). -/
def spritePixel (row : Byte) (c : Nat) : Bool := row.getLsbD (7 - c)

/-- The column of pixel c of a sprite at x, wrapping (43_display.md R160). -/
def spriteCol (x : Byte) (c : Nat) : Fin 64 := Fin.ofNat 64 (x.toNat + c)

/-- The row of sprite row r of a sprite at y, wrapping (43_display.md R160). -/
def spriteRow (y : Byte) (r : Nat) : Fin 32 := Fin.ofNat 32 (y.toNat + r)

/-- The framebuffer and the collision accumulator of one draw (43_display.md R160; 10_state.md R24). -/
structure Canvas where
  fb : Framebuffer
  collided : Bool
  deriving DecidableEq, Repr

/-- One set sprite pixel: a set cell about to be cleared collides, and the cell is inverted (43_display.md R160). -/
def Canvas.plot (k : Canvas) (y : Fin 32) (x : Fin 64) : Canvas :=
  { fb := k.fb.toggle y x, collided := k.collided || k.fb.cell y x }

/-- The pixels c, c+1, …, of one sprite row, n of them, drawn on framebuffer row py (43_display.md R160). -/
def Canvas.drawPixels (k : Canvas) (py : Fin 32) (x : Byte) (row : Byte) (c : Nat) : Nat → Canvas
  | 0 => k
  | n + 1 =>
    Canvas.drawPixels (if spritePixel row c then k.plot py (spriteCol x c) else k) py x row (c + 1) n

/-- The sprite rows r, r+1, … (43_display.md R160). -/
def Canvas.drawRows (k : Canvas) (x y : Byte) (r : Nat) : List Byte → Canvas
  | [] => k
  | row :: rows => Canvas.drawRows (k.drawPixels (spriteRow y r) x row 0 8) x y (r + 1) rows

/-- `DrawSprite(x, y, rows)`: the framebuffer after the draw and the collision bit (43_display.md R160). -/
def drawSprite (fb : Framebuffer) (x y : Byte) (rows : List Byte) : Canvas :=
  Canvas.drawRows { fb := fb, collided := false } x y 0 rows

end Sys2Proof.Machine
end

