-- ==== Sys2Proof/Machine/Display.lean ====
section
/-! DEFINITION. CLS and DRW (43_display.md R166, R167). -/

namespace Sys2Proof.Machine

/-- CLS: every cell 0, VF unchanged (43_display.md R165, R167). -/
def execCls (s : State) : Result := advance (s.setFb Framebuffer.clear)

/-- What a DRW in range draws: the N bytes at I, at column V[X] and row V[Y] (43_display.md R166). -/
def drawnCanvas (x y : Reg) (n : RowCount) (s : State) : Canvas :=
  drawSprite s.fb (s.getV x) (s.getV y) (s.mem.readBytes (dataAddr s) n.val)

/-- DRW Vx, Vy, N: every row is read before fb changes, so a faulting DRW draws nothing, and what fb holds in the fault
stop is the free value of any fault (log 6); VF, the collision bit, is written last (43_display.md R166). -/
def execDrw (x y : Reg) (n : RowCount) (s : State) : Result :=
  let k := drawnCanvas x y n s
  guarded .data (dataAddr s) n.val s (advance ((s.setFb k.fb).setFlag k.collided))

end Sys2Proof.Machine
end

