-- ==== Sys2Proof/Machine/IndexMemory.lean ====
section
/-! DEFINITION. The index register and the memory block operations (42_index_memory.md R140 to R145). I is unchanged by
every access. -/

namespace Sys2Proof.Machine

/-- LD I, NNN (42_index_memory.md R140). -/
def execLdI (nnn : Addr12) (s : State) : Result := advance (s.setI (absoluteAddr nnn))

/-- ADD I, Vx: modulo 65536, no flag (42_index_memory.md R141). -/
def execAddI (x : Reg) (s : State) : Result := advance (s.setI (s.I.toNat + (s.getV x).toNat))

/-- LD F, Vx (42_index_memory.md R142). -/
def execLdFont (x : Reg) (s : State) : Result := advance (s.setI (fontAddr (s.getV x)))

/-- The bytes written at I, I+1, …, the accesses in range. -/
def State.storeAtI (s : State) (bytes : List Byte) : State :=
  { s with mem := s.mem.writeBytes (dataAddr s) bytes }

/-- LD B, Vx: the decimal digits at I, I+1, I+2 (42_index_memory.md R143). -/
def execBcd (x : Reg) (s : State) : Result :=
  guarded .data (dataAddr s) 3 s (advance (s.storeAtI (bcdBytes (s.getV x))))

/-- LD [I], Vx: V0..Vx at I.. (42_index_memory.md R144). -/
def execStoreRegs (x : Reg) (s : State) : Result :=
  guarded .data (dataAddr s) (blockCount x) s (advance (s.storeAtI (blockBytes x s)))

/-- LD Vx, [I]: V0..Vx from I.. (42_index_memory.md R145). -/
def execLoadRegs (x : Reg) (s : State) : Result :=
  guarded .data (dataAddr s) (blockCount x) s (advance (loadBlock x s))

end Sys2Proof.Machine
end

