-- ==== Sys2Proof/Machine/Timers.lean ====
section
/-! DEFINITION. The timer instructions (44_timers_stubs.md R180 to R182), the inert stubs (R184 to R187) and Unknown
(R188). The block never changes DT or ST otherwise (R183). -/

namespace Sys2Proof.Machine

/-- LD Vx, DT (44_timers_stubs.md R180). -/
def execLdVxDt (x : Reg) (s : State) : Result := advance (s.setV x s.DT)

/-- LD DT, Vx (44_timers_stubs.md R181). -/
def execLdDtVx (x : Reg) (s : State) : Result := advance (s.setDT (s.getV x))

/-- LD ST, Vx (44_timers_stubs.md R182). -/
def execLdStVx (x : Reg) (s : State) : Result := advance (s.setST (s.getV x))

/-- RND Vx, NN, inert: V[X] keeps its value (44_timers_stubs.md R184). -/
def execRnd (_x : Reg) (_nn : Byte) (s : State) : Result := advance s

/-- SKP Vx, inert: it never skips (44_timers_stubs.md R185). -/
def execSkipKey (_x : Reg) (s : State) : Result := advance s

/-- SKNP Vx, inert: it never skips (44_timers_stubs.md R186). -/
def execSkipNotKey (_x : Reg) (s : State) : Result := advance s

/-- LD Vx, K, inert: it does not wait (44_timers_stubs.md R187). -/
def execLdKey (_x : Reg) (s : State) : Result := advance s

/-- Unknown(w): a no-op that advances pc (44_timers_stubs.md R188). -/
def execUnknown (_w : Word) (s : State) : Result := advance s

end Sys2Proof.Machine
end

