-- ==== Sys2Proof/Machine/Step.lean ====
section
/-! DEFINITION. The `step` transaction (40_control.md R100). -/

namespace Sys2Proof.Machine

/-- One step: nothing while HALT = 1 or FAULT.valid = 1 (10_state.md R27); else fetch, decode, execute and commit. A
fetch out of range takes MemFault(FETCH). -/
def step (s : State) : Host.Outcome State Fault Refusal :=
  if stopped s then .next s
  else
    match fetchWord s with
    | .error bad => .next (takeMemFault .fetch bad s)
    | .ok w => exec (decode w) s

/-- s with the instruction word w (of which nbits are given and the rest are 0) stored where step fetches next (log 11). -/
def State.withFetchWord (s : State) (nbits w : Nat) : State :=
  placeFetchWord s (BitVec.ofNat 16 (w % 2 ^ nbits))

end Sys2Proof.Machine
end

