-- ==== Sys2Proof/Machine/Transactions.lean ====
section
/-! DEFINITION. The block's port transactions (10_state.md R25): `init`, `step`, `halted`, `reset`, `set_pc` and
`timer_write`. `observe` is in Observe.lean. Transactions are serialised and land between steps (R27). -/

namespace Sys2Proof.Machine

/-- The bytes of the program region 0x200–0xFFF: 0xE00 = 3584 (20_memory.md R54). -/
def romSpace : Nat := Config.memSize - Config.progBase

/-- The power-on values with the ROM's bytes at 0x200, as many as the program region holds: what `init` has written when
it ends, or when it raises its fault (70_reset_and_hazards.md R230). The model's counter of free values goes on
(log 12). -/
def State.loadRom (s : State) (rom : List Byte) : State :=
  { State.reset with
    mem := State.reset.mem.writeBytes Config.progBase (rom.take romSpace)
    freeIx := s.freeIx }

/-- `init(rom)` (70_reset_and_hazards.md R230). A ROM that reaches past 0xFFF raises MemFault(LOAD, 0x1000) once its first
3584 bytes are written, with pc = 0x200 (log 9). -/
def State.init (s : State) (rom : List Byte) : State :=
  if rom.length ≤ romSpace then s.loadRom rom else takeMemFault .load Config.memSize (s.loadRom rom)

/-- `reset` (70_reset_and_hazards.md R231): pc, sp, fb and HALT; the fault stop ignores it. -/
def State.softReset (s : State) : State :=
  if s.FAULT.valid then s
  else { s with pc := 0x200, sp := 0x1FE, fb := Framebuffer.clear, HALT := false }

/-- `set_pc(addr)` (60_exceptions.md R210): pc and nothing else, HALT included; the fault stop ignores it (R202). -/
def State.setPc (s : State) (addr : Word) : State :=
  if s.FAULT.valid then s else { s with pc := addr }

/-- `timer_write(dt, st)` (44_timers_stubs.md R183); the fault stop ignores it (10_state.md R22; log 10). -/
def State.timerWrite (s : State) (dt st : Byte) : State :=
  if s.FAULT.valid then s else { s with DT := dt, ST := st }

/-- The `halted` output: HALT (10_state.md R21, R25). -/
def State.halted (s : State) : Bool := s.HALT

/-- The transactions that can change the block (10_state.md R25). -/
inductive Transaction where
  | init (rom : List Byte)
  | step
  | reset
  | setPc (addr : Word)
  | timerWrite (dt st : Byte)
  deriving DecidableEq, Repr

/-- One transaction, under a setting of TIMER_AGENT (44_timers_stubs.md R183; log 10): with `absent` there is no
`timer_write` port. -/
def transact (agent : Config.TimerAgent) (t : Transaction) (s : State) : Host.Outcome State Fault Refusal :=
  match t with
  | .init rom => .next (s.init rom)
  | .step => Sys2Proof.Machine.step s
  | .reset => .next s.softReset
  | .setPc addr => .next (s.setPc addr)
  | .timerWrite dt st =>
    match agent with
    | .absent => .refused .noTimerPort
    | .external => .next (s.timerWrite dt st)

end Sys2Proof.Machine
end

