-- ==== Sys2Proof/Machine/Observe.lean ====
section
/-! DEFINITION. The state elements a host can observe (10_state.md R23, R25) and what `observe` may return (R26). -/

namespace Sys2Proof.Machine

/-- A state element, with each byte of mem and each bit of fb by itself (10_state.md R26). -/
inductive Element where
  | v (r : Reg)
  | pc
  | index
  | sp
  | dt
  | st
  | cell (y : Fin 32) (x : Fin 64)
  | byte (a : Nat)
  | halt
  | fault
  deriving DecidableEq, Repr

/-- Whether two states hold the same value of an element. -/
def State.agreeAt (s t : State) : Element → Prop
  | .v r => t.getV r = s.getV r
  | .pc => t.pc = s.pc
  | .index => t.I = s.I
  | .sp => t.sp = s.sp
  | .dt => t.DT = s.DT
  | .st => t.ST = s.ST
  | .cell y x => t.fb.cell y x = s.fb.cell y x
  | .byte a => t.mem.read a = s.mem.read a
  | .halt => t.HALT = s.HALT
  | .fault => t.FAULT = s.FAULT

/-- What `observe` may return when taken between two transactions, in state s: the state exactly (10_state.md R26). -/
def exactObservation (s seen : State) : Prop := ∀ e, s.agreeAt seen e

/-- What `observe` may return when it overlaps a transaction from `before` to `after`: for each element either value, in
any mix (10_state.md R26; log 13). -/
def overlappingObservation (before after seen : State) : Prop :=
  ∀ e, before.agreeAt seen e ∨ after.agreeAt seen e

end Sys2Proof.Machine
end

