-- ==== Sys2Proof/Machine/Scheduler.lean ====
section
/-! DEFINITION. The host model: the scheduler outside the block (60_exceptions.md R207 to R213). It is NOT part of the
hardware (00_scope.md R4) and no rule of the block depends on it; log 15 lists what it decides where the rules are
silent. -/

namespace Sys2Proof.Machine

/-- The host's run-state (60_exceptions.md R209). -/
inductive RunState where
  | running
  | paused
  | halted
  /-- After Stop: no further ticks. -/
  | terminated
  deriving DecidableEq, Repr

/-- A host command (60_exceptions.md R207). -/
inductive HostCommand where
  | step
  | continue_
  | pause
  | reset
  | setPc (addr : Nat)
  | toggleBreak (addr : Nat)
  | setRate (ips : Nat)
  | stop
  deriving DecidableEq, Repr

/-- The host with the block it drives. -/
structure Scheduler where
  run : RunState
  /-- A Step command's one instruction is still to be executed (R211). -/
  single : Bool
  /-- A rate change in this tick skips its execution (R208). -/
  skip : Bool
  /-- Stop was received: the loop ends after this tick (R213). -/
  stopping : Bool
  /-- The breakpoint set: pc addresses without repeats (R212). -/
  breaks : List Nat
  /-- The pacing rate (R213). -/
  ips : Nat
  block : State
  deriving DecidableEq, Repr

/-- A breakpoint toggle: an address present is removed, any other inserted (60_exceptions.md R212). -/
def toggleBreakpoint (addr : Nat) (breaks : List Nat) : List Nat :=
  if addr ∈ breaks then breaks.filter (· != addr) else addr :: breaks

/-- One command, processed between steps (60_exceptions.md R207, R209, R211). DESIGN CHOICE (log 15): a Pause or a Reset
processed while a Step's instruction is still to be executed drops that instruction, where R211 says that a Step executes
exactly one and R208 executes only "if still runnable after command processing"; and a second Step, or a Continue, there
changes nothing, so that one instruction is executed. -/
def Scheduler.command (h : Scheduler) : HostCommand → Scheduler
  | .step => if h.run = .paused then { h with run := .running, single := true } else h
  | .continue_ => if h.run = .paused then { h with run := .running, single := false } else h
  | .pause => if h.run = .running then { h with run := .paused, single := false } else h
  | .reset => { h with run := .paused, single := false, block := h.block.softReset }
  | .setPc addr => { h with block := h.block.setPc (BitVec.ofNat 16 addr) }
  | .toggleBreak addr => { h with breaks := toggleBreakpoint addr h.breaks }
  | .setRate ips => { h with ips := ips, skip := true }
  | .stop => { h with stopping := true }

/-- The block after one `step` transaction. A step always answers a next state. -/
def stepBlock (s : State) : State :=
  match step s with
  | .next t => t
  | .fault _ => s
  | .refused _ => s

/-- The host at its start: no breakpoint, no pending Step, and the default rate (00_scope.md R5). The run-state is a
parameter (92_eei_decisions.md D38). -/
def Scheduler.start (run : RunState) (block : State) : Scheduler :=
  { run := run, single := false, skip := false, stopping := false, breaks := [], ips := Config.defaultIps, block := block }

/-- Tick step 1: a pc in the breakpoint set forces Paused (60_exceptions.md R208). DESIGN CHOICE (log 15): it also forgets
a Step that a rate change held over from the tick before, so that instruction is not executed until another Step or
Continue. -/
def Scheduler.breakpointCheck (h : Scheduler) : Scheduler :=
  if h.block.pc.toNat ∈ h.breaks then { h with run := .paused, single := false } else h

/-- Tick step 4: if still runnable, exactly one step; a halt makes the run-state Halted, and a Step command's instruction
leaves it Paused (60_exceptions.md R208, R209, R211). DESIGN CHOICE (log 15): R209 gives a MemFault no transition, and the
host reads the `halted` output alone, so after a step that faults, HALT being a free value, it is Halted where HALT is 1
and otherwise as after any step. -/
def Scheduler.executeOne (h : Scheduler) : Scheduler :=
  if h.run = .running ∧ h.skip = false then
    let b := stepBlock h.block
    { h with
      block := b
      single := false
      run := if b.halted then .halted else if h.single then .paused else .running }
  else h

/-- One host tick with the commands drained in it (60_exceptions.md R208). In Paused or Halted an empty list is a tick
that still waits for a command. -/
def Scheduler.tick (h : Scheduler) (cmds : List HostCommand) : Scheduler :=
  if h.run = .terminated then h
  else
    let e := (cmds.foldl Scheduler.command h.breakpointCheck).executeOne
    if e.stopping then { e with run := .terminated, skip := false } else { e with skip := false }

end Sys2Proof.Machine
end

