-- ==== Sys2Proof/Safety.lean ====
section
/-! DEFINITION. What counts as a good state and as an unchanged element: the terms the statements use. -/

namespace Sys2Proof

/-- The registers an instruction may write, by the access table of 10_state.md R11. -/
def Instr.mayWrite (i : Instr) (r : Reg) : Bool :=
  match i with
  | .ldImm x _ | .addImm x _ | .ldReg x _ | .or x _ | .and x _ | .xor x _ | .ldVxDt x => r == x
  | .addReg x _ | .subReg x _ | .shr x _ | .subN x _ | .shl x _ => r == x || r == VF
  | .drw _ _ _ => r == VF
  | .loadRegs x => decide (r.val ≤ x.val)
  | .sys _ | .cls | .ret | .jmp _ | .call _ | .skipEqImm _ _ | .skipNeImm _ _ | .skipEqReg _ _
  | .skipNeReg _ _ | .ldI _ | .jmpV0 _ | .rnd _ _ | .skipKey _ | .skipNotKey _ | .ldKey _ | .ldDtVx _
  | .ldStVx _ | .addI _ | .ldFont _ | .bcd _ | .storeRegs _ | .unknown _ => false

end Sys2Proof

namespace Sys2Proof.Machine

/-- A state that takes a step: neither HALT nor the fault stop (10_state.md R27). -/
def State.running (s : State) : Prop := s.HALT = false ∧ s.FAULT.valid = false

/-- Only the elements W names may differ from s to t: the frame of an instruction. -/
def State.changesOnly (s t : State) (W : Element → Prop) : Prop := ∀ e, ¬ W e → s.agreeAt t e

/-- The n bytes at a are all in range (20_memory.md R44). -/
def accessOk (a n : Nat) : Prop := n = 0 ∨ a + n ≤ 0x1000

/-- The first out-of-range byte of an access that starts at a and runs past 0xFFF (60_exceptions.md R201). -/
def firstBadByte (a : Nat) : Nat := if 0xFFF < a then a else 0x1000

/-- t is in the fault stop that a MemFault leaves, the instruction at s's pc having raised it (60_exceptions.md R202). -/
def State.faultedWith (s t : State) (cause : FaultCause) (addr : Nat) : Prop :=
  t.FAULT = { valid := true, cause := cause, addr := BitVec.ofNat 17 addr } ∧ t.pc = s.pc

/-- The cell at column px and row py is covered by a set pixel of the sprite `rows` drawn at (x, y): pixel c of row r,
bit 7 − c of its byte, falls on column (x + c) mod 64 and row (y + r) mod 32 (43_display.md R160, R161). -/
def spriteCovers (x y : Byte) (rows : List Byte) (py : Fin 32) (px : Fin 64) : Prop :=
  ∃ r c : Nat, r < rows.length ∧ c < 8 ∧ (rows.getD r 0).toNat.testBit (7 - c) = true ∧
    py.val = (y.toNat + r) % 32 ∧ px.val = (x.toNat + c) % 64

/-- The invariant of the block: memory is canonical, and outside the fault stop sp is even and at most 0xFFE
(20_memory.md R53, 40_control.md R105). -/
def State.Inv (s : State) : Prop :=
  s.mem.wf = true ∧ (s.FAULT.valid = false → s.sp.toNat % 2 = 0 ∧ s.sp.toNat ≤ 0xFFE)

end Sys2Proof.Machine
end

