-- ==== Sys2Proof/Certificates/Slice0/Obligations.lean ====
section
/-! DEFINITION. The statements for the provers, from the numbered rules of spec/. A statement about an instruction says
that `exec` answers a next state, what that state holds, and, by `State.changesOnly`, that every other state element (each
register, each byte of memory, each framebuffer cell) is as before. -/

open Sys2Proof Sys2Proof.Machine

/-! ## Encoding (30_encoding.md) -/

/-- 30_encoding.md §6 (R80): decode and encode are inverses on every instruction a word can stand for; the two SYS
operands that are no such instruction decode as CLS and RET. -/
def Obligations.DecodeOfEncodeIsTheInstruction : Prop :=
  (∀ i : Instr, i.wf = true → decode (encode i) = i) ∧
    decode (encode (.sys 0x0E0)) = .cls ∧ decode (encode (.sys 0x0EE)) = .ret

/-- 30_encoding.md §3 (R74): decoding is total, gives only instructions a word can stand for, and drops no bit. -/
def Obligations.EncodeOfDecodeIsTheWord : Prop :=
  ∀ w : Word, (decode w).wf = true ∧ encode (decode w) = w

/-- 30_encoding.md §4 (R75): exactly the words of the five unassigned spaces decode to Unknown. -/
def Obligations.UnknownIsExactlyTheUnassignedSpaces : Prop :=
  ∀ w : Word,
    decode w = .unknown w ↔
      (w.toNat / 0x1000 = 0x5 ∧ w.toNat % 0x10 ≠ 0) ∨
      (w.toNat / 0x1000 = 0x8 ∧ w.toNat % 0x10 ∈ [0x8, 0x9, 0xA, 0xB, 0xC, 0xD, 0xF]) ∨
      (w.toNat / 0x1000 = 0x9 ∧ w.toNat % 0x10 ≠ 0) ∨
      (w.toNat / 0x1000 = 0xE ∧ w.toNat % 0x100 ∉ [0x9E, 0xA1]) ∨
      (w.toNat / 0x1000 = 0xF ∧
        w.toNat % 0x100 ∉ [0x07, 0x0A, 0x15, 0x18, 0x1E, 0x29, 0x33, 0x55, 0x65])

/-- 30_encoding.md R81: the three words the source's worked example fixes. -/
def Obligations.ScenarioWordsDecode : Prop :=
  decode 0x6005 = .ldImm 0 0x05 ∧ decode 0x6103 = .ldImm 1 0x03 ∧ decode 0x8014 = .addReg 0 1

/-- 95_test_vectors.md §2.1: decode vectors of the table's classes. -/
def Obligations.DecodeVectors : Prop :=
  decode 0x0000 = .sys 0x000 ∧ decode 0x00E0 = .cls ∧ decode 0x00EE = .ret ∧ decode 0x00EF = .sys 0x0EF ∧
    decode 0x5120 = .skipEqReg 1 2 ∧ decode 0x5121 = .unknown 0x5121 ∧ decode 0x8ABE = .shl 0xA 0xB ∧
    decode 0xE39E = .skipKey 3 ∧ decode 0xF30A = .ldKey 3 ∧ decode 0xF375 = .unknown 0xF375 ∧
    decode 0xD120 = .drw 1 2 0

/-! ## The step (40_control.md) -/

/-- 40_control.md §1 (R100): a step of a running block whose pc can be fetched from runs the instruction of the
big-endian word there, and adds nothing around it. -/
def Obligations.StepRunsTheDecodedInstruction : Prop :=
  ∀ s : State, s.running → s.pc.toNat ≤ 0xFFE →
    step s = exec (decode (BitVec.ofNat 16
      (0x100 * (s.mem.read s.pc.toNat).toNat + (s.mem.read (s.pc.toNat + 1)).toNat))) s

/-- 10_state.md §6 (R27): a step while HALT = 1 or FAULT.valid = 1 changes nothing. -/
def Obligations.StoppedStepChangesNothing : Prop :=
  ∀ s : State, s.HALT = true ∨ s.FAULT.valid = true → step s = .next s

/-- 60_exceptions.md §1, §2 (R201, R202): a fetch past 0xFFF takes MemFault(FETCH) with the first out-of-range byte and
keeps pc. -/
def Obligations.FetchPastMemoryFaults : Prop :=
  ∀ s : State, s.running → 0xFFE < s.pc.toNat →
    ∃ t, step s = .next t ∧ s.faultedWith t .fetch (firstBadByte s.pc.toNat)

/-- 60_exceptions.md §1 (R200) and log 7: every step answers a next state; none ends in a fault or a refusal of the model. -/
def Obligations.EveryStepAnswersNext : Prop := ∀ s : State, ∃ t, step s = .next t

/-- 20_memory.md §6 (R53) and 40_control.md §2 (R105): every step keeps memory canonical and, outside the fault stop, sp
even and at most 0xFFE. -/
def Obligations.StepKeepsTheInvariant : Prop :=
  ∀ s t : State, s.Inv → step s = .next t → t.Inv

/-- The power-on state meets the invariant that every step keeps. -/
def Obligations.ResetMeetsTheInvariant : Prop := State.reset.Inv

/-- Every other transaction keeps the invariant too. -/
def Obligations.HostTransactionsKeepTheInvariant : Prop :=
  ∀ (agent : Config.TimerAgent) (x : Transaction) (s t : State),
    s.Inv → x ≠ .step → transact agent x s = .next t → t.Inv

/-- The word that a loader places at the fetch address is the one the next step runs, from any state (log 11, the model's
choice of how a program is loaded). -/
def Obligations.PlacedWordIsRun : Prop :=
  ∀ (s : State) (w : Word),
    step (s.withFetchWord 16 w.toNat) = exec (decode w) (s.withFetchWord 16 w.toNat)

/-! ## Power-on, reset and the host's transactions (10_state.md, 70_reset_and_hazards.md) -/

/-- 10_state.md §7 (R28): what `init` leaves, with the ROM at 0x200, FONT_DATA at FONT_BASE and zeros elsewhere. The
power-on state is `init` with an empty ROM. The zeros of V, I, DT, ST, fb and memory are the spec's decisions D4 to D6,
where the source is silent (log 3, DESIGN CHOICE). -/
def Obligations.PowerOnValues : Prop :=
  State.reset.init [] = State.reset ∧
  ∀ (agent : Config.TimerAgent) (s : State) (rom : List Byte), rom.length ≤ 0xE00 →
    ∃ t, transact agent (.init rom) s = .next t ∧
      (∀ r, t.getV r = 0) ∧ t.pc = 0x200 ∧ t.I = 0 ∧ t.sp = 0x1FE ∧ t.DT = 0 ∧ t.ST = 0 ∧
      (∀ y x, t.fb.cell y x = false) ∧ t.HALT = false ∧
      t.FAULT.valid = false ∧ t.FAULT.cause.code = 0 ∧ t.FAULT.addr = 0 ∧
      (∀ k, k < rom.length → t.mem.read (0x200 + k) = rom.getD k 0) ∧
      (∀ k : Fin 80, t.mem.read (Config.fontBase.val + k.val) = Config.fontData[k]) ∧
      ∀ a, a < 0x1000 → (a < 0x200 ∨ 0x200 + rom.length ≤ a) →
        (a < Config.fontBase.val ∨ Config.fontBase.val + 80 ≤ a) → t.mem.read a = 0

/-- 70_reset_and_hazards.md R232: both resets set pc to 0x200, and the first step after one fetches the big-endian word at
0x200 and 0x201. -/
def Obligations.ResetVectorIsFetchedFirst : Prop :=
  ∀ (agent : Config.TimerAgent) (s : State) (x : Transaction),
    (x = .reset ∧ s.FAULT.valid = false) ∨ (∃ rom, x = .init rom) →
    ∃ t, transact agent x s = .next t ∧ t.pc = 0x200 ∧
      (t.FAULT.valid = false →
        step t = exec (decode (BitVec.ofNat 16
          (0x100 * (t.mem.read 0x200).toNat + (t.mem.read 0x201).toNat))) t)

/-- 20_memory.md §7 (R54) and 70_reset_and_hazards.md §1 (R230): a ROM that reaches past 0xFFF raises MemFault(LOAD,
0x1000) in the state whose program region holds its first 3584 bytes, and pc is 0x200. Memory in the fault stop is any
value (60_exceptions.md R202; log 9). -/
def Obligations.OversizedRomFaults : Prop :=
  ∀ (agent : Config.TimerAgent) (s : State) (rom : List Byte), 0xE00 < rom.length →
    ∃ t, transact agent (.init rom) s = .next t ∧
      t = takeMemFault .load 0x1000 (s.loadRom rom) ∧
      t.FAULT = { valid := true, cause := .load, addr := 0x1000 } ∧ t.pc = 0x200 ∧
      ∀ k, k < 0xE00 → (s.loadRom rom).mem.read (0x200 + k) = rom.getD k 0

/-- 10_state.md §7 (R29) and 70_reset_and_hazards.md §1 (R231): a soft reset sets pc, sp, fb and HALT and keeps
everything else; the fault stop ignores it. -/
def Obligations.SoftResetValues : Prop :=
  ∀ (agent : Config.TimerAgent) (s : State),
    (s.FAULT.valid = true → transact agent .reset s = .next s) ∧
    (s.FAULT.valid = false →
      ∃ t, transact agent .reset s = .next t ∧ t.pc = 0x200 ∧ t.sp = 0x1FE ∧
        (∀ y x, t.fb.cell y x = false) ∧ t.HALT = false ∧
        s.changesOnly t (fun e => e = .pc ∨ e = .sp ∨ e = .halt ∨ ∃ y x, e = .cell y x))

/-- 60_exceptions.md §5 (R210): set-pc sets pc and nothing else, HALT included; the next step fetches there, unless
HALT = 1, and faults if the address is 0xFFF or more. -/
def Obligations.SetPcSetsOnlyPc : Prop :=
  ∀ (agent : Config.TimerAgent) (s : State) (addr : Word), s.FAULT.valid = false →
    ∃ t, transact agent (.setPc addr) s = .next t ∧ t.pc = addr ∧ s.changesOnly t (fun e => e = .pc) ∧
      (s.HALT = true → step t = .next t) ∧
      (s.HALT = false → addr.toNat < 0xFFF →
        step t = exec (decode (s.mem.readWord addr.toNat)) t) ∧
      (s.HALT = false → 0xFFF ≤ addr.toNat →
        ∃ u, step t = .next u ∧ t.faultedWith u .fetch (firstBadByte addr.toNat))

/-- 10_state.md §5 (R22) and 60_exceptions.md §2 (R202): in the fault stop no transaction but `init` changes anything. The
two rules name `step`, `reset` and `set_pc`; that it holds of `timer_write` too is the model's reading of R22 (log 10,
DEDUCED). -/
def Obligations.FaultStopIsLeftOnlyByInit : Prop :=
  ∀ (agent : Config.TimerAgent) (x : Transaction) (s t : State), s.FAULT.valid = true →
    (∀ rom, x ≠ .init rom) → transact agent x s = .next t → t = s

/-- 60_exceptions.md §6 (R217): only `reset` and `init` end HALT. -/
def Obligations.HaltIsLeftOnlyByResetOrInit : Prop :=
  ∀ (agent : Config.TimerAgent) (x : Transaction) (s t : State), s.HALT = true →
    x ≠ .reset → (∀ rom, x ≠ .init rom) → transact agent x s = .next t → t.HALT = true

/-- 44_timers_stubs.md §1 (R183): with TIMER_AGENT = external a timer write sets DT and ST and nothing else; with absent
there is no such port (the refusal by name is the model's, log 10). -/
def Obligations.TimerWritePort : Prop :=
  ∀ (s : State) (dt st : Byte),
    transact .absent (.timerWrite dt st) s = .refused .noTimerPort ∧
    (s.FAULT.valid = false →
      ∃ t, transact .external (.timerWrite dt st) s = .next t ∧ t.DT = dt ∧ t.ST = st ∧
        s.changesOnly t (fun e => e = .dt ∨ e = .st))

/-! ## Whole-machine rules -/

/-- 40_control.md §1 (R101) and 60_exceptions.md §6 (R217): only a JP to its own address halts. -/
def Obligations.OnlyTheSelfJumpHalts : Prop :=
  ∀ (i : Instr) (s t : State), s.HALT = false → exec i s = .next t → t.FAULT.valid = false →
    (t.HALT = true ↔ ∃ nnn, i = .jmp nnn ∧ nnn.toNat = s.pc.toNat)

/-- 10_state.md §4 (R15, R16) and 44_timers_stubs.md §1 (R183): I, sp, DT and ST have no other writers than these. -/
def Obligations.SpecialRegisterWriters : Prop :=
  ∀ (i : Instr) (s t : State), exec i s = .next t → t.FAULT.valid = false →
    (t.I ≠ s.I → ∃ nnn x, i = .ldI nnn ∨ i = .addI x ∨ i = .ldFont x) ∧
    (t.sp ≠ s.sp → ∃ nnn, i = .call nnn ∨ i = .ret) ∧
    (t.DT ≠ s.DT → ∃ x, i = .ldDtVx x) ∧
    (t.ST ≠ s.ST → ∃ x, i = .ldStVx x)

/-- 10_state.md §4 (R19) and 20_memory.md §4 (R46, R47): the framebuffer and memory have no other writers than these. -/
def Obligations.FramebufferAndMemoryWriters : Prop :=
  ∀ (i : Instr) (s t : State), exec i s = .next t → t.FAULT.valid = false →
    (∀ y x, t.fb.cell y x ≠ s.fb.cell y x → i = .cls ∨ ∃ a b n, i = .drw a b n) ∧
    (∀ a, t.mem.read a ≠ s.mem.read a → ∃ nnn x, i = .call nnn ∨ i = .bcd x ∨ i = .storeRegs x)

/-- 10_state.md §1, §2 (R11, R12): a register is written only where the access table names it. -/
def Obligations.RegisterWriters : Prop :=
  ∀ (i : Instr) (s t : State), exec i s = .next t → t.FAULT.valid = false →
    ∀ r, i.mayWrite r = false → t.getV r = s.getV r

/-- 10_state.md §2 (R12): each of the six flag writers leaves 0 or 1 in VF. -/
def Obligations.FlagWritersLeaveZeroOrOne : Prop :=
  ∀ (s t : State) (x y : Reg) (n : RowCount),
    (exec (.addReg x y) s = .next t ∨ exec (.subReg x y) s = .next t ∨ exec (.subN x y) s = .next t ∨
      exec (.shr x y) s = .next t ∨ exec (.shl x y) s = .next t ∨ exec (.drw x y n) s = .next t) →
    t.FAULT.valid = false → (t.getV VF).toNat ≤ 1

/-- 60_exceptions.md §1, §2 (R201, R202): which instructions can fault, with which cause, and that pc keeps the faulting
instruction's address. -/
def Obligations.FaultCausesByInstruction : Prop :=
  ∀ (i : Instr) (s t : State), s.FAULT.valid = false → exec i s = .next t → t.FAULT.valid = true →
    t.pc = s.pc ∧
    ((t.FAULT.cause.code = 1 ∧ ∃ nnn, i = .call nnn ∨ i = .ret) ∨
      (t.FAULT.cause.code = 2 ∧
        ∃ x y n, i = .drw x y n ∨ i = .bcd x ∨ i = .storeRegs x ∨ i = .loadRegs x))

/-! ## Control transfer (40_control.md) -/

/-- 44_timers_stubs.md R184 to R188: the stubs and Unknown write nothing, and the next pc is pc + 2. -/
def Obligations.StubsAndUnknownOnlyAdvance : Prop :=
  ∀ (s : State) (x : Reg) (nn : Byte) (w : Word),
    exec (.rnd x nn) s = .next { s with pc := BitVec.ofNat 16 (s.pc.toNat + 2) } ∧
    exec (.skipKey x) s = .next { s with pc := BitVec.ofNat 16 (s.pc.toNat + 2) } ∧
    exec (.skipNotKey x) s = .next { s with pc := BitVec.ofNat 16 (s.pc.toNat + 2) } ∧
    exec (.ldKey x) s = .next { s with pc := BitVec.ofNat 16 (s.pc.toNat + 2) } ∧
    exec (.unknown w) s = .next { s with pc := BitVec.ofNat 16 (s.pc.toNat + 2) } ∧
    decode (BitVec.ofNat 16 (0xC000 + 0x100 * x.val + nn.toNat)) = .rnd x nn ∧
    decode (BitVec.ofNat 16 (0xE09E + 0x100 * x.val)) = .skipKey x ∧
    decode (BitVec.ofNat 16 (0xE0A1 + 0x100 * x.val)) = .skipNotKey x ∧
    decode (BitVec.ofNat 16 (0xF00A + 0x100 * x.val)) = .ldKey x ∧
    (unassigned w = true → decode w = .unknown w)

/-- 40_control.md §2 (R102): SYS only advances pc, whatever its operand. -/
def Obligations.SysOnlyAdvances : Prop :=
  ∀ (s : State) (nnn : Addr12),
    exec (.sys nnn) s = .next { s with pc := BitVec.ofNat 16 (s.pc.toNat + 2) }

/-- 40_control.md §2 (R106 to R109): a skip whose condition holds goes to pc + 4, any other to pc + 2, and nothing else
changes. The conditions are the spec's decision D34. -/
def Obligations.SkipsAdvanceByFourOrTwo : Prop :=
  ∀ (s : State) (x y : Reg) (nn : Byte),
    exec (.skipEqImm x nn) s = .next
      { s with pc := BitVec.ofNat 16 (s.pc.toNat + if s.getV x = nn then 4 else 2) } ∧
    exec (.skipNeImm x nn) s = .next
      { s with pc := BitVec.ofNat 16 (s.pc.toNat + if s.getV x = nn then 2 else 4) } ∧
    exec (.skipEqReg x y) s = .next
      { s with pc := BitVec.ofNat 16 (s.pc.toNat + if s.getV x = s.getV y then 4 else 2) } ∧
    exec (.skipNeReg x y) s = .next
      { s with pc := BitVec.ofNat 16 (s.pc.toNat + if s.getV x = s.getV y then 2 else 4) }

/-- 40_control.md R104: JP sets pc unless the target is its own address, which halts and leaves pc. -/
def Obligations.JumpSetsPcOrHalts : Prop :=
  ∀ (s : State) (nnn : Addr12),
    decode (BitVec.ofNat 16 (0x1000 + nnn.toNat)) = .jmp nnn ∧
    (nnn.toNat = s.pc.toNat → exec (.jmp nnn) s = .next { s with HALT := true }) ∧
    (nnn.toNat ≠ s.pc.toNat → exec (.jmp nnn) s = .next { s with pc := BitVec.ofNat 16 nnn.toNat })

/-- 40_control.md §2 (R110): the indexed jump goes to NNN + V0, unwrapped, and never halts. The target is the spec's
decision D17. -/
def Obligations.IndexedJumpAddsV0 : Prop :=
  ∀ (s : State) (nnn : Addr12),
    ∃ t, exec (.jmpV0 nnn) s = .next t ∧ t.pc.toNat = nnn.toNat + (s.getV 0).toNat ∧
      t.pc.toNat ≤ 0x10FE ∧ s.changesOnly t (fun e => e = .pc)

/-- 40_control.md §2 (R105) and 20_memory.md §6 (R50): CALL writes its own address, high byte first, at sp and sp + 1,
moves sp down by 2 saturating at 0, and jumps; every other byte is as before. The stack discipline is the spec's decision
D10. -/
def Obligations.CallPushesItsOwnAddress : Prop :=
  ∀ (s : State) (nnn : Addr12), s.sp.toNat + 1 ≤ 0xFFF →
    ∃ t, exec (.call nnn) s = .next t ∧ t.pc.toNat = nnn.toNat ∧
      t.sp.toNat = (if 2 ≤ s.sp.toNat then s.sp.toNat - 2 else 0) ∧
      (t.mem.read s.sp.toNat).toNat = s.pc.toNat / 0x100 ∧
      (t.mem.read (s.sp.toNat + 1)).toNat = s.pc.toNat % 0x100 ∧
      s.changesOnly t (fun e =>
        e = .pc ∨ e = .sp ∨ e = .byte s.sp.toNat ∨ e = .byte (s.sp.toNat + 1))

/-- 40_control.md §2 (R103) and 20_memory.md §6 (R51): RET moves sp up by 2 saturating at 0xFFFF, pops the big-endian
word there, and goes to it plus 2 modulo 65536; the frame stays. The + 2 is the spec's decision D11. -/
def Obligations.ReturnGoesPastThePoppedAddress : Prop :=
  ∀ (s : State) (top : Nat), top = min (s.sp.toNat + 2) 0xFFFF → top + 1 ≤ 0xFFF →
    ∃ t, exec .ret s = .next t ∧ t.sp.toNat = top ∧
      t.pc.toNat =
        (0x100 * (s.mem.read top).toNat + (s.mem.read (top + 1)).toNat + 2) % 0x10000 ∧
      s.changesOnly t (fun e => e = .pc ∨ e = .sp)

/-- 20_memory.md §6 (R51, R52): after a CALL that did not saturate, RET resumes after the CALL and restores sp. -/
def Obligations.CallThenReturnResumesAfterTheCall : Prop :=
  ∀ (s : State) (nnn : Addr12), 2 ≤ s.sp.toNat → s.sp.toNat + 1 ≤ 0xFFF →
    ∃ t u, exec (.call nnn) s = .next t ∧ exec .ret t = .next u ∧
      u.pc = s.pc + 2 ∧ u.sp = s.sp

/-- 40_control.md §2 (R103, R105) and 60_exceptions.md §1, §2 (R201, R202): a stack frame past 0xFFF takes
MemFault(STACK). -/
def Obligations.StackFramePastMemoryFaults : Prop :=
  ∀ (s : State) (nnn : Addr12) (top : Nat), top = min (s.sp.toNat + 2) 0xFFFF →
    (0xFFF < s.sp.toNat + 1 →
      ∃ t, exec (.call nnn) s = .next t ∧ s.faultedWith t .stack (firstBadByte s.sp.toNat)) ∧
    (0xFFF < top + 1 →
      ∃ t, exec .ret s = .next t ∧ s.faultedWith t .stack (firstBadByte top))

/-- 40_control.md §2 (R105): outside the fault stop, in states that meet the invariant, CALL never faults. -/
def Obligations.CallNeverFaultsUnderTheInvariant : Prop :=
  ∀ (s : State) (nnn : Addr12), s.Inv → s.FAULT.valid = false →
    ∃ t, exec (.call nnn) s = .next t ∧ t.FAULT = s.FAULT

/-! ## Loads and the ALU (41_alu.md) -/

/-- 41_alu.md R120: LD Vx, NN puts NN in V[X] and changes nothing else but pc. -/
def Obligations.LoadImmediate : Prop :=
  ∀ (s : State) (x : Reg) (nn : Byte),
    decode (BitVec.ofNat 16 (0x6000 + 0x100 * x.val + nn.toNat)) = .ldImm x nn ∧
    ∃ t, exec (.ldImm x nn) s = .next t ∧ t.getV x = nn ∧ t.pc = s.pc + 2 ∧
      s.changesOnly t (fun e => e = .pc ∨ e = .v x)

/-- 41_alu.md (R122) and 44_timers_stubs.md §1 (R180): LD Vx, Vy and LD Vx, DT copy their source. The meanings are the
spec's decision D19. -/
def Obligations.RegisterCopies : Prop :=
  ∀ (s : State) (x y : Reg),
    (∃ t, exec (.ldReg x y) s = .next t ∧ t.getV x = s.getV y ∧ t.pc = s.pc + 2 ∧
      s.changesOnly t (fun e => e = .pc ∨ e = .v x)) ∧
    (∃ t, exec (.ldVxDt x) s = .next t ∧ t.getV x = s.DT ∧ t.pc = s.pc + 2 ∧
      s.changesOnly t (fun e => e = .pc ∨ e = .v x))

/-- 41_alu.md (R121): ADD Vx, NN wraps modulo 256 and writes no flag (the spec's decision D14). -/
def Obligations.AddImmediateWrapsWithoutFlag : Prop :=
  ∀ (s : State) (x : Reg) (nn : Byte),
    ∃ t, exec (.addImm x nn) s = .next t ∧
      (t.getV x).toNat = ((s.getV x).toNat + nn.toNat) % 256 ∧ t.pc = s.pc + 2 ∧
      s.changesOnly t (fun e => e = .pc ∨ e = .v x)

/-- 41_alu.md (R123 to R125): OR, AND and XOR combine V[X] and V[Y] bit by bit into V[X] and write no flag (the spec's
decision D13). -/
def Obligations.BitwiseCombinesBitByBit : Prop :=
  ∀ (s : State) (x y : Reg),
    (∃ t, exec (.or x y) s = .next t ∧
      (∀ k, (t.getV x).getLsbD k = ((s.getV x).getLsbD k || (s.getV y).getLsbD k)) ∧ t.pc = s.pc + 2 ∧
      s.changesOnly t (fun e => e = .pc ∨ e = .v x)) ∧
    (∃ t, exec (.and x y) s = .next t ∧
      (∀ k, (t.getV x).getLsbD k = ((s.getV x).getLsbD k && (s.getV y).getLsbD k)) ∧ t.pc = s.pc + 2 ∧
      s.changesOnly t (fun e => e = .pc ∨ e = .v x)) ∧
    (∃ t, exec (.xor x y) s = .next t ∧
      (∀ k, (t.getV x).getLsbD k = ((s.getV x).getLsbD k != (s.getV y).getLsbD k)) ∧ t.pc = s.pc + 2 ∧
      s.changesOnly t (fun e => e = .pc ∨ e = .v x))

/-- 41_alu.md (R126): the sum modulo 256 in V[X], and VF, written last, is 1 iff the sum is 256 or more; when X = F, VF
holds the flag (the spec's decision D12). -/
def Obligations.AddRegistersCarriesIntoVF : Prop :=
  ∀ (s : State) (x y : Reg),
    ∃ t, exec (.addReg x y) s = .next t ∧
      (x ≠ VF → (t.getV x).toNat = ((s.getV x).toNat + (s.getV y).toNat) % 256) ∧
      (t.getV VF).toNat = (if 256 ≤ (s.getV x).toNat + (s.getV y).toNat then 1 else 0) ∧
      t.pc = s.pc + 2 ∧ s.changesOnly t (fun e => e = .pc ∨ e = .v x ∨ e = .v VF)

/-- 41_alu.md (R127, R129): SUB and SUBN wrap modulo 256, and VF, written last, says strictly greater, so 0 for equal
operands (write order: the spec's decision D12). -/
def Obligations.SubtractionsFlagStrictlyGreater : Prop :=
  ∀ (s : State) (x y : Reg),
    (∃ t, exec (.subReg x y) s = .next t ∧
      (x ≠ VF → (t.getV x).toNat = ((s.getV x).toNat + 256 - (s.getV y).toNat) % 256) ∧
      (t.getV VF).toNat = (if (s.getV y).toNat < (s.getV x).toNat then 1 else 0) ∧
      t.pc = s.pc + 2 ∧ s.changesOnly t (fun e => e = .pc ∨ e = .v x ∨ e = .v VF)) ∧
    (∃ t, exec (.subN x y) s = .next t ∧
      (x ≠ VF → (t.getV x).toNat = ((s.getV y).toNat + 256 - (s.getV x).toNat) % 256) ∧
      (t.getV VF).toNat = (if (s.getV x).toNat < (s.getV y).toNat then 1 else 0) ∧
      t.pc = s.pc + 2 ∧ s.changesOnly t (fun e => e = .pc ∨ e = .v x ∨ e = .v VF))

/-- 41_alu.md (R128, R130): SHR and SHL shift V[Y], whatever V[X] held, and VF, written last, is the bit shifted out
(write order: the spec's decision D12). -/
def Obligations.ShiftsTakeTheSecondOperand : Prop :=
  ∀ (s : State) (x y : Reg),
    (∃ t, exec (.shr x y) s = .next t ∧
      (x ≠ VF → (t.getV x).toNat = (s.getV y).toNat / 2) ∧
      (t.getV VF).toNat = (s.getV y).toNat % 2 ∧
      t.pc = s.pc + 2 ∧ s.changesOnly t (fun e => e = .pc ∨ e = .v x ∨ e = .v VF)) ∧
    (∃ t, exec (.shl x y) s = .next t ∧
      (x ≠ VF → (t.getV x).toNat = 2 * (s.getV y).toNat % 256) ∧
      (t.getV VF).toNat = (s.getV y).toNat / 128 ∧
      t.pc = s.pc + 2 ∧ s.changesOnly t (fun e => e = .pc ∨ e = .v x ∨ e = .v VF))

/-! ## The index register and memory (42_index_memory.md) -/

/-- 42_index_memory.md (R140 to R142): LD I, ADD I (modulo 65536, no flag: decision D15) and LD F (FONT_BASE plus five
times the whole register value, never wrapping). -/
def Obligations.IndexRegisterWrites : Prop :=
  ∀ (s : State) (x : Reg) (nnn : Addr12),
    (∃ t, exec (.ldI nnn) s = .next t ∧ t.I.toNat = nnn.toNat ∧ t.pc = s.pc + 2 ∧
      s.changesOnly t (fun e => e = .pc ∨ e = .index)) ∧
    (∃ t, exec (.addI x) s = .next t ∧ t.I.toNat = (s.I.toNat + (s.getV x).toNat) % 65536 ∧
      t.pc = s.pc + 2 ∧ s.changesOnly t (fun e => e = .pc ∨ e = .index)) ∧
    (∃ t, exec (.ldFont x) s = .next t ∧
      t.I.toNat = Config.fontBase.val + 5 * (s.getV x).toNat ∧ t.pc = s.pc + 2 ∧
      s.changesOnly t (fun e => e = .pc ∨ e = .index))

/-- 42_index_memory.md R143: LD B writes the hundreds, tens and ones of V[X] at I, I + 1, I + 2 and nothing else; where
one of the three is out of range, the first such address faults. -/
def Obligations.BcdStoresTheDecimalDigits : Prop :=
  ∀ (s : State) (x : Reg),
    decode (BitVec.ofNat 16 (0xF033 + 0x100 * x.val)) = .bcd x ∧
    (accessOk s.I.toNat 3 →
      ∃ t, exec (.bcd x) s = .next t ∧
        (t.mem.read s.I.toNat).toNat = (s.getV x).toNat / 100 ∧
        (t.mem.read (s.I.toNat + 1)).toNat = (s.getV x).toNat / 10 % 10 ∧
        (t.mem.read (s.I.toNat + 2)).toNat = (s.getV x).toNat % 10 ∧ t.pc = s.pc + 2 ∧
        s.changesOnly t (fun e => e = .pc ∨ ∃ k, k < 3 ∧ e = .byte (dataAddr s + k))) ∧
    (¬ accessOk s.I.toNat 3 →
      ∃ t, exec (.bcd x) s = .next t ∧ s.faultedWith t .data (firstBadByte s.I.toNat))

/-- 20_memory.md §2 (R42) and §6 (R50, R51), 40_control.md §2 (R103): words are big-endian, in memory, in the fetch, and
in the frames of CALL and RET. Where a frame lies (sp for CALL, sp + 2 for RET) and the + 2 of RET are the spec's
decisions D10 and D11 (log 17, PRESUMED). -/
def Obligations.WordsAreBigEndian : Prop :=
  (∀ (m : Memory) (a : Nat) (w : Word), a + 1 ≤ 0xFFF →
    (m.readWord a).toNat = 0x100 * (m.read a).toNat + (m.read (a + 1)).toNat ∧
    ((m.writeWord a w).read a).toNat = w.toNat / 0x100 ∧
    ((m.writeWord a w).read (a + 1)).toNat = w.toNat % 0x100 ∧
    ∀ b, b ≠ a → b ≠ a + 1 → (m.writeWord a w).read b = m.read b) ∧
  ∀ (s : State) (nnn : Addr12),
    (s.running → s.pc.toNat + 1 ≤ 0xFFF → step s = exec (decode (s.mem.readWord s.pc.toNat)) s) ∧
    (s.sp.toNat + 1 ≤ 0xFFF →
      ∃ t, exec (.call nnn) s = .next t ∧ t.mem = s.mem.writeWord s.sp.toNat s.pc) ∧
    (s.sp.toNat + 3 ≤ 0xFFF →
      ∃ t, exec .ret s = .next t ∧ t.pc = s.mem.readWord (s.sp.toNat + 2) + 2)

/-- 42_index_memory.md (R144): LD [I], Vx writes V0..Vx, X inclusive, at I.. in register order, and no other byte. I is
unchanged (decision D16). -/
def Obligations.StoreRegistersWritesV0ToVx : Prop :=
  ∀ (s : State) (x : Reg), accessOk s.I.toNat (x.val + 1) →
    ∃ t, exec (.storeRegs x) s = .next t ∧
      (∀ k : Reg, k.val ≤ x.val → t.mem.read (s.I.toNat + k.val) = s.getV k) ∧ t.pc = s.pc + 2 ∧
      s.changesOnly t (fun e => e = .pc ∨ ∃ k, k ≤ x.val ∧ e = .byte (dataAddr s + k))

/-- 42_index_memory.md (R145): LD Vx, [I] loads V0..Vx, X inclusive, from I.., and no other register. I is unchanged
(decision D16). -/
def Obligations.LoadRegistersReadsV0ToVx : Prop :=
  ∀ (s : State) (x : Reg), accessOk s.I.toNat (x.val + 1) →
    ∃ t, exec (.loadRegs x) s = .next t ∧
      (∀ k : Reg, k.val ≤ x.val → t.getV k = s.mem.read (s.I.toNat + k.val)) ∧ t.pc = s.pc + 2 ∧
      s.changesOnly t (fun e => e = .pc ∨ ∃ k : Reg, k.val ≤ x.val ∧ e = .v k)

/-- 42_index_memory.md (R145): a load with the same I and X is the exact inverse of a store, whatever the registers and pc
hold in between. -/
def Obligations.LoadIsTheInverseOfStore : Prop :=
  ∀ (s t : State) (x : Reg) (regs : Vector Byte 16) (pc : Word), accessOk s.I.toNat (x.val + 1) →
    exec (.storeRegs x) s = .next t →
    ∃ u, exec (.loadRegs x) { t with V := regs, pc := pc } = .next u ∧
      ∀ k : Reg, k.val ≤ x.val → u.getV k = s.getV k

/-- 42_index_memory.md, 43_display.md §2 (R166) and 60_exceptions.md §1, §2 (R201, R202): a block access that runs past
0xFFF takes MemFault(DATA) at its first out-of-range address, and a DRW takes it in its own start state, before any cell
is drawn. What fb holds in the fault stop is any value (R202; log 6). -/
def Obligations.BlockAccessPastMemoryFaults : Prop :=
  ∀ (s : State) (x y : Reg) (n : RowCount),
    (¬ accessOk s.I.toNat (x.val + 1) →
      (∃ t, exec (.storeRegs x) s = .next t ∧ s.faultedWith t .data (firstBadByte s.I.toNat)) ∧
      (∃ t, exec (.loadRegs x) s = .next t ∧ s.faultedWith t .data (firstBadByte s.I.toNat))) ∧
    (¬ accessOk s.I.toNat n.val →
      ∃ t, exec (.drw x y n) s = .next t ∧ s.faultedWith t .data (firstBadByte s.I.toNat) ∧
        t = takeMemFault .data (firstBadByte s.I.toNat) s)

/-- 20_memory.md §8 (R59) and 70_reset_and_hazards.md §2 (R241): a store over the very next instruction is what the next
step runs. -/
def Obligations.StoreIsSeenByTheNextFetch : Prop :=
  ∀ (s : State) (x : Reg), s.running → s.pc.toNat ≤ 0xFFE →
    decode (s.mem.readWord s.pc.toNat) = .storeRegs x → s.I.toNat = s.pc.toNat + 2 → 1 ≤ x.val →
    accessOk s.I.toNat (x.val + 1) →
    ∃ t, step s = .next t ∧
      step t = exec (decode (BitVec.ofNat 16 (0x100 * (s.getV 0).toNat + (s.getV 1).toNat))) t

/-! ## The display (43_display.md) -/

/-- 43_display.md R165 and §2 (R167): CLS clears every cell and changes nothing else but pc. -/
def Obligations.ClearScreenZeroesEveryCell : Prop :=
  ∀ s : State,
    ∃ t, exec .cls s = .next t ∧ (∀ y x, t.fb.cell y x = false) ∧ t.pc = s.pc + 2 ∧
      s.changesOnly t (fun e => e = .pc ∨ ∃ y x, e = .cell y x)

/-- 43_display.md §1 (R160, R161, R163): DrawSprite inverts exactly the cells a set bit falls on, with wraparound, and
returns 1 iff some cell changes from 1 to 0. That bit 7 is the leftmost pixel is the spec's decision D20 (log 17,
PRESUMED). -/
def Obligations.DrawSpriteXorsAndReportsCollision : Prop :=
  ∀ (fb : Framebuffer) (x y : Byte) (rows : List Byte), rows.length ≤ 15 →
    (∀ py px,
      (spriteCovers x y rows py px → (drawSprite fb x y rows).fb.cell py px = !fb.cell py px) ∧
      (¬ spriteCovers x y rows py px → (drawSprite fb x y rows).fb.cell py px = fb.cell py px)) ∧
    ((drawSprite fb x y rows).collided = true ↔
      ∃ py px, fb.cell py px = true ∧ (drawSprite fb x y rows).fb.cell py px = false)

/-- 43_display.md §1, §2 (R160 to R164, R166): DRW inverts exactly the cells the sprite covers, with wraparound, at the
old V[X], V[Y], and VF is 1 iff a covered cell was set. That bit 7 is the leftmost pixel and the roles of X, Y and N are
the spec's decisions D20 and D33 (log 17, PRESUMED). -/
def Obligations.DrawInvertsTheCoveredCells : Prop :=
  ∀ (s : State) (x y : Reg) (n : RowCount), accessOk s.I.toNat n.val →
    ∃ t, exec (.drw x y n) s = .next t ∧
      (∀ py px,
        (spriteCovers (s.getV x) (s.getV y) (s.mem.readBytes s.I.toNat n.val) py px →
          t.fb.cell py px = !s.fb.cell py px) ∧
        (¬ spriteCovers (s.getV x) (s.getV y) (s.mem.readBytes s.I.toNat n.val) py px →
          t.fb.cell py px = s.fb.cell py px)) ∧
      (t.getV VF).toNat ≤ 1 ∧
      (t.getV VF = 1 ↔
        ∃ py px, spriteCovers (s.getV x) (s.getV y) (s.mem.readBytes s.I.toNat n.val) py px ∧
          s.fb.cell py px = true) ∧
      t.pc = s.pc + 2 ∧
      s.changesOnly t (fun e => e = .pc ∨ e = .v VF ∨ ∃ py px, e = .cell py px)

/-- 43_display.md §3 (R168): drawing the same sprite twice restores fb, and the second draw collides iff the first set a
cell, that is iff a covered cell was 0 before. X and Y are other than F: the first draw overwrites VF, so that with X = F or
Y = F the second draw is at another place (RedrawingAtTheSamePlaceRestoresTheFramebuffer covers those forms). The sprite's
bit order and the roles of X, Y and N are the spec's decisions D20 and D33 (log 17, PRESUMED). -/
def Obligations.DrawingTwiceRestoresTheFramebuffer : Prop :=
  ∀ (s : State) (x y : Reg) (n : RowCount), accessOk s.I.toNat n.val → x ≠ VF → y ≠ VF →
    ∃ t u, exec (.drw x y n) s = .next t ∧ exec (.drw x y n) t = .next u ∧ u.fb = s.fb ∧
      (u.getV VF = 1 ↔
        ∃ py px, spriteCovers (s.getV x) (s.getV y) (s.mem.readBytes s.I.toNat n.val) py px ∧
          s.fb.cell py px = false)

/-- 43_display.md §3 (R168): for every X and Y, F included, a second draw restores fb where the registers hold the first
draw's coordinates again. The sprite's bit order and the roles of X, Y and N are the spec's decisions D20 and D33 (log 17,
PRESUMED). -/
def Obligations.RedrawingAtTheSamePlaceRestoresTheFramebuffer : Prop :=
  ∀ (s : State) (x y : Reg) (n : RowCount) (regs : Vector Byte 16), accessOk s.I.toNat n.val →
    regs[x] = s.getV x → regs[y] = s.getV y →
    ∃ t u, exec (.drw x y n) s = .next t ∧ exec (.drw x y n) { t with V := regs } = .next u ∧ u.fb = s.fb ∧
      (u.getV VF = 1 ↔
        ∃ py px, spriteCovers (s.getV x) (s.getV y) (s.mem.readBytes s.I.toNat n.val) py px ∧
          s.fb.cell py px = false)

/-! ## Timers (44_timers_stubs.md) -/

/-- 44_timers_stubs.md §1 (R181, R182): LD DT and LD ST set their timer and nothing else but pc. The encodings and
directions are the spec's decision D19. -/
def Obligations.TimersAreSetFromVx : Prop :=
  ∀ (s : State) (x : Reg),
    (∃ t, exec (.ldDtVx x) s = .next t ∧ t.DT = s.getV x ∧ t.pc = s.pc + 2 ∧
      s.changesOnly t (fun e => e = .pc ∨ e = .dt)) ∧
    (∃ t, exec (.ldStVx x) s = .next t ∧ t.ST = s.getV x ∧ t.pc = s.pc + 2 ∧
      s.changesOnly t (fun e => e = .pc ∨ e = .st))

/-! ## The host model (60_exceptions.md §5) -/

/-- 60_exceptions.md §5 (R212): a toggle removes a present address and inserts any other, so toggling twice restores the set. A
breakpoint at tick entry pauses the host with no step taken, and the next Step or Continue executes the instruction
there. That a tick may drain no command while the host is Paused is the model's choice (log 15, DESIGN CHOICE; R208 waits
for a command there). -/
def Obligations.BreakpointsToggleAndPauseAtTickEntry : Prop :=
  (∀ (a b : Nat) (breaks : List Nat),
    (b ∈ toggleBreakpoint a breaks ↔ (b ≠ a ∧ b ∈ breaks) ∨ (b = a ∧ a ∉ breaks)) ∧
    (b ∈ toggleBreakpoint a (toggleBreakpoint a breaks) ↔ b ∈ breaks)) ∧
  ∀ h : Scheduler, h.run ≠ .terminated → h.stopping = false → h.block.pc.toNat ∈ h.breaks →
    (h.tick []).run = .paused ∧ (h.tick []).block = h.block ∧
    ∃ t, step h.block = .next t ∧
      ((h.tick []).tick [.step]).block = t ∧ ((h.tick []).tick [.continue_]).block = t

/-- 60_exceptions.md §5 (R211): a Step command in Paused executes exactly one step, and the host is Paused again unless
the block halted (Halted then is the model's reading, log 15). -/
def Obligations.HostStepExecutesExactlyOneStep : Prop :=
  ∀ h : Scheduler, h.run = .paused → h.skip = false → h.stopping = false →
    ∃ t, step h.block = .next t ∧ (h.tick [.step]).block = t ∧
      (h.tick [.step]).run = (if t.HALT then .halted else .paused)
end

