-- ==== Sys2Proof/Laws/Memory.lean ====
section
/-! SUPPORT. What the memory operations do: read after write, the canonical form, and the range check. -/

namespace Sys2Proof.Machine

theorem inRange_iff (a : Nat) : inRange a = true ↔ a < 0x1000 :=
  decide_eq_true_iff

/-! ## Read after write -/

/-- A byte of the font reads as FONT_DATA's at power-on (20_memory.md R49). -/
theorem Memory.unlisted_font (k : Fin 80) :
    Memory.unlisted (Config.fontBase.val + k.val) = Config.fontData[k] := by
  have := Config.fontBase.isLt
  have h : ¬ Config.progBase ≤ Config.fontBase.val + k.val := by simp [Config.progBase]; omega
  simp [Memory.unlisted, Memory.powerOnByte, h]

/-- A byte outside the font reads as 0x00 at power-on (10_state.md R28). -/
theorem Memory.unlisted_of_outside {a : Nat}
    (h : a < Config.fontBase.val ∨ Config.fontBase.val + 80 ≤ a) : Memory.unlisted a = 0 := by
  simp only [Memory.unlisted, Memory.powerOnByte]
  split
  · rfl
  · split
    · rw [List.getD_eq_default _ _ (by simp; omega)]
    · rfl

theorem Memory.read_without_self (m : Memory) (a : Nat) :
    (m.without a).read a = Memory.unlisted a := by
  induction m with
  | nil => rfl
  | cons c m ih =>
    obtain ⟨k, b⟩ := c
    by_cases h : k = a
    · simpa [Memory.without, h] using ih
    · simpa [Memory.without, h, Memory.read] using ih

theorem Memory.read_without_of_ne (m : Memory) {a a' : Nat} (h : a' ≠ a) :
    (m.without a).read a' = m.read a' := by
  induction m with
  | nil => rfl
  | cons c m ih =>
    obtain ⟨k, b⟩ := c
    by_cases hk : k = a
    · subst hk
      simpa [Memory.without, Memory.read, Ne.symm h] using ih
    · have := ih
      simp only [Memory.without] at this
      simp [Memory.without, hk, Memory.read, this]

theorem Memory.read_place_of_ne (m : Memory) (b : Byte) {a a' : Nat} (h : a' ≠ a) :
    (Memory.place a b m).read a' = m.read a' := by
  induction m with
  | nil => simp [Memory.place, Memory.read, Ne.symm h]
  | cons c m ih =>
    obtain ⟨k, b'⟩ := c
    by_cases hk : k < a
    · simp [Memory.place, hk, Memory.read, ih]
    · simp [Memory.place, hk, Memory.read, Ne.symm h]

theorem Memory.read_place_self (m : Memory) (a : Nat) (b : Byte) (h : ∀ c ∈ m, c.1 ≠ a) :
    (Memory.place a b m).read a = b := by
  induction m with
  | nil => simp [Memory.place, Memory.read]
  | cons c m ih =>
    obtain ⟨k, b'⟩ := c
    have hk : k ≠ a := h (k, b') (by simp)
    have ih := ih (fun c hc => h c (by simp [hc]))
    by_cases hlt : k < a
    · simp [Memory.place, hlt, Memory.read, hk, ih]
    · simp [Memory.place, hlt, Memory.read]

theorem Memory.ne_of_mem_without {m : Memory} {a : Nat} {c : Host.Cell} (h : c ∈ m.without a) :
    c.1 ≠ a := by
  simpa using (List.mem_filter.mp h).2

/-- A byte just written reads back, and every other byte is as before. -/
theorem Memory.read_write (m : Memory) {a : Nat} (b : Byte) (a' : Nat) (h : a < 0x1000) :
    (m.write a b).read a' = if a' = a then b else m.read a' := by
  have hr := (inRange_iff a).mpr h
  by_cases ha : a' = a
  · subst ha
    by_cases hb : b = Memory.unlisted a'
    · simp [Memory.write, hr, hb, Memory.read_without_self]
    · simpa [Memory.write, hr, hb] using
        Memory.read_place_self _ _ _ (fun c hc => Memory.ne_of_mem_without hc)
  · by_cases hb : b = Memory.unlisted a
    · subst hb
      simp [Memory.write, hr, ha, Memory.read_without_of_ne]
    · simp [Memory.write, hr, hb, ha, Memory.read_place_of_ne, Memory.read_without_of_ne]

/-- A write changes no other byte, in range or not. -/
theorem Memory.read_write_of_ne (m : Memory) {a a' : Nat} (b : Byte) (h : a' ≠ a) :
    (m.write a b).read a' = m.read a' := by
  by_cases hr : a < 0x1000
  · simp [Memory.read_write m b a' hr, h]
  · simp [Memory.write, Bool.eq_false_iff.mpr (mt (inRange_iff a).mp hr)]

/-- Bytes just written read back in order, and every byte outside them is as before. -/
theorem Memory.read_writeBytes (m : Memory) {a : Nat} (bs : List Byte) (a' : Nat)
    (h : a + bs.length ≤ 0x1000) :
    (m.writeBytes a bs).read a' =
      if a ≤ a' then bs.getD (a' - a) (m.read a') else m.read a' := by
  induction bs generalizing m a with
  | nil => simp [Memory.writeBytes]
  | cons b bs ih =>
    simp only [List.length_cons] at h
    rw [Memory.writeBytes, ih _ (by omega), Memory.read_write _ _ _ (by omega)]
    rcases Nat.lt_trichotomy a' a with hlt | heq | hgt
    · simp [show ¬ a + 1 ≤ a' by omega, show ¬ a ≤ a' by omega, show a' ≠ a by omega]
    · subst heq
      simp [show ¬ a' + 1 ≤ a' by omega]
    · have hs : a' - a = (a' - (a + 1)) + 1 := by omega
      simp [show a + 1 ≤ a' by omega, show a ≤ a' by omega, show a' ≠ a by omega, hs]

/-- A byte outside the bytes written is as before. -/
theorem Memory.read_writeBytes_of_outside (m : Memory) {a : Nat} (bs : List Byte) {a' : Nat}
    (h : a' < a ∨ a + bs.length ≤ a') : (m.writeBytes a bs).read a' = m.read a' := by
  induction bs generalizing m a with
  | nil => rfl
  | cons b bs ih =>
    simp only [List.length_cons] at h
    rw [Memory.writeBytes, ih _ (by omega), Memory.read_write_of_ne _ _ (by omega)]

theorem Memory.length_readBytes (m : Memory) (a n : Nat) : (m.readBytes a n).length = n := by
  induction n generalizing a with
  | zero => rfl
  | succ n ih => simp [Memory.readBytes, ih]

theorem Memory.getElem_readBytes (m : Memory) (a n k : Nat) (h : k < (m.readBytes a n).length) :
    (m.readBytes a n)[k] = m.read (a + k) := by
  induction n generalizing a k with
  | zero => simp [Memory.readBytes] at h
  | succ n ih =>
    cases k with
    | zero => rfl
    | succ k => simp [Memory.readBytes, ih, Nat.add_assoc, Nat.add_comm 1]

/-! ## Words -/

theorem getLsbD_wordOfBytes (hi lo : Byte) (i : Nat) :
    (wordOfBytes hi lo).getLsbD i = if i < 8 then lo.getLsbD i else hi.getLsbD (i - 8) := by
  simpa [wordOfBytes] using BitVec.getLsbD_append (x := hi) (y := lo) (i := i)

theorem highByte_wordOfBytes (hi lo : Byte) : highByte (wordOfBytes hi lo) = hi := by
  refine BitVec.eq_of_getLsbD_eq fun i h => ?_
  simp [highByte, getLsbD_wordOfBytes, h]

theorem lowByte_wordOfBytes (hi lo : Byte) : lowByte (wordOfBytes hi lo) = lo := by
  refine BitVec.eq_of_getLsbD_eq fun i h => ?_
  simp [lowByte, getLsbD_wordOfBytes, h]

theorem wordOfBytes_high_low (w : Word) : wordOfBytes (highByte w) (lowByte w) = w := by
  refine BitVec.eq_of_getLsbD_eq fun i h => ?_
  by_cases hi : i < 8
  · simp [getLsbD_wordOfBytes, hi, lowByte]
  · simp [getLsbD_wordOfBytes, hi, highByte, show i - 8 < 8 by omega, show 8 + (i - 8) = i by omega]

/-- A word's value from its bytes (20_memory.md R42). -/
theorem toNat_wordOfBytes (hi lo : Byte) : (wordOfBytes hi lo).toNat = 0x100 * hi.toNat + lo.toNat := by
  have h : (wordOfBytes hi lo).toNat = hi.toNat <<< 8 ||| lo.toNat := BitVec.toNat_append hi lo
  rw [h, ← Nat.shiftLeft_add_eq_or_of_lt lo.isLt, Nat.shiftLeft_eq]
  omega

/-- The word written at a reads back (20_memory.md R42). -/
theorem Memory.readWord_writeWord (m : Memory) {a : Nat} (w : Word) (h : a + 2 ≤ 0x1000) :
    (m.writeWord a w).readWord a = w := by
  simp [Memory.readWord, Memory.writeWord, Memory.read_writeBytes, h, wordOfBytes_high_low]

/-! ## The canonical form -/

theorem Memory.wf_cons {k : Nat} {b : Byte} {m : Memory} :
    Memory.wf ((k, b) :: m) = true ↔
      k < 0x1000 ∧ b ≠ Memory.unlisted k ∧ (∀ c ∈ m, k < c.1) ∧ Memory.wf m = true := by
  simp [Memory.wf, inRange_iff, and_assoc]

theorem Memory.wf_without {m : Memory} (h : m.wf = true) (a : Nat) : (m.without a).wf = true := by
  induction m with
  | nil => rfl
  | cons c m ih =>
    obtain ⟨k, b⟩ := c
    obtain ⟨h1, h2, h3, h4⟩ := Memory.wf_cons.mp h
    by_cases hk : k = a
    · simpa [Memory.without, hk] using ih h4
    · have : Memory.without ((k, b) :: m) a = (k, b) :: Memory.without m a := by
        simp [Memory.without, hk]
      rw [this, Memory.wf_cons]
      exact ⟨h1, h2, fun c hc => h3 c (List.mem_of_mem_filter hc), ih h4⟩

theorem Memory.mem_place {m : Memory} {a : Nat} {b : Byte} {c : Host.Cell}
    (h : c ∈ Memory.place a b m) : c = (a, b) ∨ c ∈ m := by
  induction m with
  | nil => simpa [Memory.place] using h
  | cons d m ih =>
    by_cases hd : d.1 < a
    · simp only [Memory.place, hd, if_true, List.mem_cons] at h ⊢
      rcases h with h | h
      · exact .inr (.inl h)
      · exact (ih h).imp_right .inr
    · simpa [Memory.place, hd] using h

theorem Memory.wf_place {m : Memory} (h : m.wf = true) {a : Nat} {b : Byte} (ha : a < 0x1000)
    (hb : b ≠ Memory.unlisted a) (hm : ∀ c ∈ m, c.1 ≠ a) : (Memory.place a b m).wf = true := by
  induction m with
  | nil => exact Memory.wf_cons.mpr ⟨ha, hb, by simp, rfl⟩
  | cons d m ih =>
    obtain ⟨k, b'⟩ := d
    have hk : k ≠ a := hm (k, b') (by simp)
    obtain ⟨h1, h2, h3, h4⟩ := Memory.wf_cons.mp h
    by_cases hlt : k < a
    · simp only [Memory.place, hlt, if_true]
      refine Memory.wf_cons.mpr ⟨h1, h2, fun c hc => ?_, ih h4 (fun c hc => hm c (by simp [hc]))⟩
      rcases Memory.mem_place hc with rfl | hc
      · exact hlt
      · exact h3 c hc
    · simp only [Memory.place, hlt, if_false]
      refine Memory.wf_cons.mpr ⟨ha, hb, fun c hc => ?_, h⟩
      rcases List.mem_cons.mp hc with rfl | hc
      · exact lt_of_le_of_ne (Nat.le_of_not_lt hlt) (Ne.symm hk)
      · exact lt_of_le_of_lt (Nat.le_of_not_lt hlt) (h3 c hc)

/-- A write keeps the canonical form. -/
theorem Memory.wf_write {m : Memory} (h : m.wf = true) (a : Nat) (b : Byte) :
    (m.write a b).wf = true := by
  unfold Memory.write
  split
  · rename_i hr
    split
    · exact Memory.wf_without h a
    · exact Memory.wf_place (Memory.wf_without h a) ((inRange_iff a).mp hr) ‹_›
        (fun c hc => Memory.ne_of_mem_without hc)
  · exact h

theorem Memory.wf_writeBytes {m : Memory} (h : m.wf = true) (a : Nat) (bs : List Byte) :
    (m.writeBytes a bs).wf = true := by
  induction bs generalizing m a with
  | nil => exact h
  | cons b bs ih => exact ih (Memory.wf_write h a b) (a + 1)

theorem Memory.wf_writeWord {m : Memory} (h : m.wf = true) (a : Nat) (w : Word) :
    (m.writeWord a w).wf = true :=
  Memory.wf_writeBytes h a _

/-! ## A memory given byte by byte -/

theorem Memory.wf_filterMap_range' (f : Nat → Byte) (a n : Nat) (h : a + n ≤ 0x1000) :
    Memory.wf ((List.range' a n).filterMap
      (fun a => if f a = Memory.unlisted a then none else some (a, f a))) = true := by
  induction n generalizing a with
  | zero => rfl
  | succ n ih =>
    rw [List.range'_succ, List.filterMap_cons]
    have ih := ih (a + 1) (by omega)
    by_cases hf : f a = Memory.unlisted a
    · simpa [hf] using ih
    · simp only [hf, if_false]
      refine Memory.wf_cons.mpr ⟨by omega, hf, fun c hc => ?_, ih⟩
      obtain ⟨k, hk, hc⟩ := List.mem_filterMap.mp hc
      split at hc
      · cases hc
      · cases hc
        have := (List.mem_range'_1.mp hk).1
        simpa using this

theorem Memory.wf_ofBytes (f : Nat → Byte) : (Memory.ofBytes f).wf = true := by
  delta Memory.ofBytes
  rw [List.range_eq_range']
  exact Memory.wf_filterMap_range' f 0 _ (by simp [Config.memSize])

theorem Memory.read_filterMap_range' (f : Nat → Byte) (a n a' : Nat) :
    Memory.read ((List.range' a n).filterMap
      (fun a => if f a = Memory.unlisted a then none else some (a, f a))) a' =
      if a ≤ a' ∧ a' < a + n then f a' else Memory.unlisted a' := by
  induction n generalizing a with
  | zero => simp [Memory.read, show ¬ (a ≤ a' ∧ a' < a) by omega]
  | succ n ih =>
    rw [List.range'_succ, List.filterMap_cons]
    have ih := ih (a + 1)
    by_cases hf : f a = Memory.unlisted a
    · simp only [hf, if_true, ih]
      by_cases ha : a' = a
      · subst ha
        simp [hf, show ¬ (a' + 1 ≤ a') by omega]
      · split <;> split <;> first | rfl | omega
    · simp only [hf, if_false, Memory.read, ih]
      by_cases ha : a = a'
      · subst ha
        simp
      · simp only [ha, if_false]
        split <;> split <;> first | rfl | omega

/-- Every byte in range of such a memory is the byte given. -/
theorem Memory.read_ofBytes (f : Nat → Byte) {a : Nat} (h : a < 0x1000) :
    (Memory.ofBytes f).read a = f a := by
  delta Memory.ofBytes
  rw [List.range_eq_range', Memory.read_filterMap_range']
  simp [Config.memSize, h]

/-! ## The range check -/

/-- The first out-of-range byte of an access, in one line (20_memory.md R43, R44). -/
theorem firstOutOfRange_eq (a n : Nat) :
    firstOutOfRange a n =
      if n = 0 then none
      else if 0xFFF < a then some a
      else if 0x1000 < a + n then some 0x1000
      else none := by
  induction n generalizing a with
  | zero => rfl
  | succ n ih =>
    rw [firstOutOfRange, ih]
    by_cases h : a < 0x1000
    · rw [if_pos ((inRange_iff a).mpr h)]
      split_ifs <;> first | rfl | omega | (congr 1; omega)
    · rw [if_neg (mt (inRange_iff a).mp h)]
      simp [show 0xFFF < a by omega]

theorem firstOutOfRange_eq_none {a n : Nat} :
    firstOutOfRange a n = none ↔ n = 0 ∨ a + n ≤ 0x1000 := by
  rw [firstOutOfRange_eq]
  split_ifs <;> simp <;> omega

theorem firstOutOfRange_eq_some {a n bad : Nat} :
    firstOutOfRange a n = some bad ↔
      n ≠ 0 ∧ 0x1000 < a + n ∧ bad = if 0xFFF < a then a else 0x1000 := by
  rw [firstOutOfRange_eq]
  split_ifs <;> simp <;> omega

end Sys2Proof.Machine
end

