-- ==== Sys2Proof/Laws/Raster.lean ====
section
/-! SUPPORT. What a draw does, cell by cell: the loops of 43_display.md R160 plot a list of distinct cells (R164), so a
draw inverts exactly the cells of that list and collides iff one of them was set (R163). -/

namespace Sys2Proof.Machine

@[simp] theorem Framebuffer.cell_clear (y : Fin 32) (x : Fin 64) : Framebuffer.clear.cell y x = false := by
  simp [Framebuffer.cell, Framebuffer.clear]

/-- Two framebuffers with the same cells are the same. -/
theorem Framebuffer.ext_cell {f g : Framebuffer} (h : ∀ y x, f.cell y x = g.cell y x) : f = g := by
  refine Vector.ext fun y hy => Vector.ext fun x hx => ?_
  simpa [Framebuffer.cell] using h ⟨y, hy⟩ ⟨x, hx⟩

theorem Framebuffer.cell_ofFn (f : Fin 32 → Fin 64 → Bool) (y : Fin 32) (x : Fin 64) :
    Framebuffer.cell (Vector.ofFn fun y => Vector.ofFn fun x => f y x) y x = f y x := by
  simp [Framebuffer.cell]

theorem Framebuffer.cell_toggle (fb : Framebuffer) (y y' : Fin 32) (x x' : Fin 64) :
    (fb.toggle y x).cell y' x' = (fb.cell y' x' ^^ decide ((y', x') = (y, x))) := by
  simp only [Framebuffer.cell, Framebuffer.toggle, Fin.getElem_fin, Prod.mk.injEq]
  by_cases hy : y = y'
  · subst hy
    by_cases hx : x = x'
    · subst hx
      simp
    · have : (x : Nat) ≠ x' := fun h => hx (Fin.ext h)
      simp [this, Ne.symm hx]
  · have : (y : Nat) ≠ y' := fun h => hy (Fin.ext h)
    simp [this, Ne.symm hy]

/-! ## A draw as a list of plotted cells -/

/-- The columns plotted by the pixels c, c+1, … of a sprite row. -/
def rowColumns (x : Byte) (row : Byte) (c n : Nat) : List (Fin 64) :=
  ((List.range' c n).filter (spritePixel row)).map (spriteCol x)

/-- The cells plotted by the sprite rows r, r+1, …. -/
def plottedCells (x y : Byte) (r : Nat) : List Byte → List (Fin 32 × Fin 64)
  | [] => []
  | row :: rows =>
    (rowColumns x row 0 8).map (fun px => (spriteRow y r, px)) ++ plottedCells x y (r + 1) rows

/-- Plotting a list of cells, one after the other. -/
def Canvas.plotAll (k : Canvas) (cells : List (Fin 32 × Fin 64)) : Canvas :=
  cells.foldl (fun k p => k.plot p.1 p.2) k

theorem Canvas.drawPixels_eq (k : Canvas) (py : Fin 32) (x row : Byte) (c n : Nat) :
    k.drawPixels py x row c n = k.plotAll ((rowColumns x row c n).map (fun px => (py, px))) := by
  induction n generalizing k c with
  | zero => rfl
  | succ n ih =>
    rw [Canvas.drawPixels, ih]
    by_cases h : spritePixel row c = true
    · simp [rowColumns, List.range'_succ, h, Canvas.plotAll]
    · simp [rowColumns, List.range'_succ, h, Canvas.plotAll]

theorem Canvas.drawRows_eq (k : Canvas) (x y : Byte) (r : Nat) (rows : List Byte) :
    k.drawRows x y r rows = k.plotAll (plottedCells x y r rows) := by
  induction rows generalizing k r with
  | nil => rfl
  | cons row rows ih =>
    rw [Canvas.drawRows, ih, Canvas.drawPixels_eq]
    simp [plottedCells, Canvas.plotAll]

/-- A cell is plotted by rows r, r+1, … iff it is the cell of a set sprite pixel. -/
theorem mem_plottedCells {x y : Byte} {r : Nat} {rows : List Byte} {py : Fin 32} {px : Fin 64} :
    (py, px) ∈ plottedCells x y r rows ↔
      ∃ i c, ∃ h : i < rows.length, c < 8 ∧ spritePixel rows[i] c = true ∧
        py = spriteRow y (r + i) ∧ px = spriteCol x c := by
  induction rows generalizing r with
  | nil => simp [plottedCells]
  | cons row rows ih =>
    simp only [plottedCells, List.mem_append, List.mem_map, rowColumns, List.mem_filter,
      List.mem_range'_1, Prod.mk.injEq, ih]
    constructor
    · rintro (⟨px', ⟨c, ⟨hc, hp⟩, rfl⟩, rfl, rfl⟩ | ⟨i, c, hi, hc, hp, rfl, rfl⟩)
      · exact ⟨0, c, by simp, by omega, hp, rfl, rfl⟩
      · exact ⟨i + 1, c, by simpa using hi, hc, by simpa using hp,
          by rw [Nat.add_assoc, Nat.add_comm 1], rfl⟩
    · rintro ⟨i, c, hi, hc, hp, rfl, rfl⟩
      cases i with
      | zero => exact .inl ⟨_, ⟨c, ⟨by omega, by simpa using hp⟩, rfl⟩, rfl, rfl⟩
      | succ i =>
        exact .inr ⟨i, c, by simpa using hi, hc, by simpa using hp,
          by rw [Nat.add_assoc, Nat.add_comm 1], rfl⟩

theorem spriteCol_injOn {x : Byte} {c c' : Nat} (hc : c < 8) (hc' : c' < 8)
    (h : spriteCol x c = spriteCol x c') : c = c' := by
  have := congrArg Fin.val h
  simp only [spriteCol, Fin.ofNat] at this
  omega

theorem spriteRow_ne {y : Byte} {r i : Nat} (hi : 0 < i) (hi' : i < 32) :
    spriteRow y r ≠ spriteRow y (r + i) := by
  intro h
  have := congrArg Fin.val h
  simp only [spriteRow, Fin.ofNat] at this
  omega

/-- One draw never touches a cell twice (43_display.md R164). -/
theorem nodup_plottedCells (x y : Byte) (r : Nat) (rows : List Byte) (h : rows.length ≤ 32) :
    (plottedCells x y r rows).Nodup := by
  induction rows generalizing r with
  | nil => simp [plottedCells]
  | cons row rows ih =>
    simp only [List.length_cons] at h
    refine List.Nodup.append ?_ (ih (r + 1) (by omega)) ?_
    · refine List.Nodup.map (fun a b hab => (Prod.mk.inj hab).2) ?_
      refine List.Nodup.map_on ?_ (List.Nodup.filter _ List.nodup_range')
      intro a ha b hb hab
      have ha := List.mem_range'_1.mp (List.mem_filter.mp ha).1
      have hb := List.mem_range'_1.mp (List.mem_filter.mp hb).1
      exact spriteCol_injOn (by omega) (by omega) hab
    · rintro ⟨py, px⟩ h1 h2
      obtain ⟨px', -, hpx⟩ := List.mem_map.mp h1
      obtain ⟨i, c, hi, -, -, hpy, -⟩ := mem_plottedCells.mp h2
      have h1 : spriteRow y r = py := (Prod.mk.inj hpx).1
      rw [Nat.add_assoc, Nat.add_comm 1] at hpy
      exact spriteRow_ne (Nat.succ_pos i) (by omega) (h1.trans hpy)

theorem Canvas.plotAll_cell (k : Canvas) (cells : List (Fin 32 × Fin 64)) (h : cells.Nodup)
    (y : Fin 32) (x : Fin 64) :
    (k.plotAll cells).fb.cell y x = (k.fb.cell y x ^^ decide ((y, x) ∈ cells)) := by
  induction cells generalizing k with
  | nil => simp [Canvas.plotAll]
  | cons p cells ih =>
    obtain ⟨hp, hc⟩ := List.nodup_cons.mp h
    have := ih (k.plot p.1 p.2) hc
    simp only [Canvas.plotAll, List.foldl_cons] at this ⊢
    rw [this]
    simp only [Canvas.plot, Framebuffer.cell_toggle, List.mem_cons]
    by_cases h1 : (y, x) = p
    · subst h1
      simp [hp]
    · simp [h1]

theorem Canvas.plotAll_collided (k : Canvas) (cells : List (Fin 32 × Fin 64)) (h : cells.Nodup) :
    (k.plotAll cells).collided = true ↔
      k.collided = true ∨ ∃ p ∈ cells, k.fb.cell p.1 p.2 = true := by
  induction cells generalizing k with
  | nil => simp [Canvas.plotAll]
  | cons p cells ih =>
    obtain ⟨hp, hc⟩ := List.nodup_cons.mp h
    have := ih (k.plot p.1 p.2) hc
    simp only [Canvas.plotAll, List.foldl_cons] at this ⊢
    rw [this]
    simp only [Canvas.plot, Bool.or_eq_true, List.mem_cons, exists_eq_or_imp, or_assoc]
    refine or_congr_right (or_congr_right (exists_congr fun q => and_congr_right fun hq => ?_))
    have : q ≠ p := fun h => hp (h ▸ hq)
    simp [Framebuffer.cell_toggle, this]

/-- What a draw does to the framebuffer: it inverts the plotted cells and no other. -/
theorem drawSprite_cell (fb : Framebuffer) (x y : Byte) (rows : List Byte) (h : rows.length ≤ 32)
    (py : Fin 32) (px : Fin 64) :
    (drawSprite fb x y rows).fb.cell py px =
      (fb.cell py px ^^ decide ((py, px) ∈ plottedCells x y 0 rows)) := by
  rw [drawSprite, Canvas.drawRows_eq, Canvas.plotAll_cell _ _ (nodup_plottedCells _ _ _ _ h)]

/-- What a draw returns: 1 iff a plotted cell was set (43_display.md R163). -/
theorem drawSprite_collided (fb : Framebuffer) (x y : Byte) (rows : List Byte) (h : rows.length ≤ 32) :
    (drawSprite fb x y rows).collided = true ↔
      ∃ p ∈ plottedCells x y 0 rows, fb.cell p.1 p.2 = true := by
  rw [drawSprite, Canvas.drawRows_eq, Canvas.plotAll_collided _ _ (nodup_plottedCells _ _ _ _ h)]
  simp

end Sys2Proof.Machine
end

