-- ==== Sys2Proof/Laws/State.lean ====
section
/-! SUPPORT. One lemma per field per update of the state, each true by rfl, so that no later proof unfolds a record
update; and reading a register after writing one. -/

namespace Sys2Proof.Machine

/-! ## State.reset -/

@[simp] theorem State.reset_V : State.reset.V = Vector.replicate 16 0 := rfl
@[simp] theorem State.reset_pc : State.reset.pc = 0x200 := rfl
@[simp] theorem State.reset_I : State.reset.I = 0 := rfl
@[simp] theorem State.reset_sp : State.reset.sp = 0x1FE := rfl
@[simp] theorem State.reset_DT : State.reset.DT = 0 := rfl
@[simp] theorem State.reset_ST : State.reset.ST = 0 := rfl
@[simp] theorem State.reset_fb : State.reset.fb = Framebuffer.clear := rfl
@[simp] theorem State.reset_mem : State.reset.mem = [] := rfl
@[simp] theorem State.reset_HALT : State.reset.HALT = false := rfl
@[simp] theorem State.reset_FAULT : State.reset.FAULT = FaultStatus.none := rfl
@[simp] theorem State.reset_freeIx : State.reset.freeIx = 0 := rfl

/-! ## State.setV -/

@[simp] theorem State.setV_V (s : State) (r : Reg) (b : Byte) :
    (s.setV r b).V = s.V.set r b := rfl
@[simp] theorem State.setV_pc (s : State) (r : Reg) (b : Byte) :
    (s.setV r b).pc = s.pc := rfl
@[simp] theorem State.setV_I (s : State) (r : Reg) (b : Byte) :
    (s.setV r b).I = s.I := rfl
@[simp] theorem State.setV_sp (s : State) (r : Reg) (b : Byte) :
    (s.setV r b).sp = s.sp := rfl
@[simp] theorem State.setV_DT (s : State) (r : Reg) (b : Byte) :
    (s.setV r b).DT = s.DT := rfl
@[simp] theorem State.setV_ST (s : State) (r : Reg) (b : Byte) :
    (s.setV r b).ST = s.ST := rfl
@[simp] theorem State.setV_fb (s : State) (r : Reg) (b : Byte) :
    (s.setV r b).fb = s.fb := rfl
@[simp] theorem State.setV_mem (s : State) (r : Reg) (b : Byte) :
    (s.setV r b).mem = s.mem := rfl
@[simp] theorem State.setV_HALT (s : State) (r : Reg) (b : Byte) :
    (s.setV r b).HALT = s.HALT := rfl
@[simp] theorem State.setV_FAULT (s : State) (r : Reg) (b : Byte) :
    (s.setV r b).FAULT = s.FAULT := rfl
@[simp] theorem State.setV_freeIx (s : State) (r : Reg) (b : Byte) :
    (s.setV r b).freeIx = s.freeIx := rfl

/-! ## State.setFlag -/

@[simp] theorem State.setFlag_V (s : State) (c : Bool) :
    (s.setFlag c).V = s.V.set VF (flagByte c) := rfl
@[simp] theorem State.setFlag_pc (s : State) (c : Bool) :
    (s.setFlag c).pc = s.pc := rfl
@[simp] theorem State.setFlag_I (s : State) (c : Bool) :
    (s.setFlag c).I = s.I := rfl
@[simp] theorem State.setFlag_sp (s : State) (c : Bool) :
    (s.setFlag c).sp = s.sp := rfl
@[simp] theorem State.setFlag_DT (s : State) (c : Bool) :
    (s.setFlag c).DT = s.DT := rfl
@[simp] theorem State.setFlag_ST (s : State) (c : Bool) :
    (s.setFlag c).ST = s.ST := rfl
@[simp] theorem State.setFlag_fb (s : State) (c : Bool) :
    (s.setFlag c).fb = s.fb := rfl
@[simp] theorem State.setFlag_mem (s : State) (c : Bool) :
    (s.setFlag c).mem = s.mem := rfl
@[simp] theorem State.setFlag_HALT (s : State) (c : Bool) :
    (s.setFlag c).HALT = s.HALT := rfl
@[simp] theorem State.setFlag_FAULT (s : State) (c : Bool) :
    (s.setFlag c).FAULT = s.FAULT := rfl
@[simp] theorem State.setFlag_freeIx (s : State) (c : Bool) :
    (s.setFlag c).freeIx = s.freeIx := rfl

/-! ## State.setI -/

@[simp] theorem State.setI_V (s : State) (a : Nat) :
    (s.setI a).V = s.V := rfl
@[simp] theorem State.setI_pc (s : State) (a : Nat) :
    (s.setI a).pc = s.pc := rfl
@[simp] theorem State.setI_I (s : State) (a : Nat) :
    (s.setI a).I = BitVec.ofNat 16 a := rfl
@[simp] theorem State.setI_sp (s : State) (a : Nat) :
    (s.setI a).sp = s.sp := rfl
@[simp] theorem State.setI_DT (s : State) (a : Nat) :
    (s.setI a).DT = s.DT := rfl
@[simp] theorem State.setI_ST (s : State) (a : Nat) :
    (s.setI a).ST = s.ST := rfl
@[simp] theorem State.setI_fb (s : State) (a : Nat) :
    (s.setI a).fb = s.fb := rfl
@[simp] theorem State.setI_mem (s : State) (a : Nat) :
    (s.setI a).mem = s.mem := rfl
@[simp] theorem State.setI_HALT (s : State) (a : Nat) :
    (s.setI a).HALT = s.HALT := rfl
@[simp] theorem State.setI_FAULT (s : State) (a : Nat) :
    (s.setI a).FAULT = s.FAULT := rfl
@[simp] theorem State.setI_freeIx (s : State) (a : Nat) :
    (s.setI a).freeIx = s.freeIx := rfl

/-! ## State.setDT -/

@[simp] theorem State.setDT_V (s : State) (b : Byte) :
    (s.setDT b).V = s.V := rfl
@[simp] theorem State.setDT_pc (s : State) (b : Byte) :
    (s.setDT b).pc = s.pc := rfl
@[simp] theorem State.setDT_I (s : State) (b : Byte) :
    (s.setDT b).I = s.I := rfl
@[simp] theorem State.setDT_sp (s : State) (b : Byte) :
    (s.setDT b).sp = s.sp := rfl
@[simp] theorem State.setDT_DT (s : State) (b : Byte) :
    (s.setDT b).DT = b := rfl
@[simp] theorem State.setDT_ST (s : State) (b : Byte) :
    (s.setDT b).ST = s.ST := rfl
@[simp] theorem State.setDT_fb (s : State) (b : Byte) :
    (s.setDT b).fb = s.fb := rfl
@[simp] theorem State.setDT_mem (s : State) (b : Byte) :
    (s.setDT b).mem = s.mem := rfl
@[simp] theorem State.setDT_HALT (s : State) (b : Byte) :
    (s.setDT b).HALT = s.HALT := rfl
@[simp] theorem State.setDT_FAULT (s : State) (b : Byte) :
    (s.setDT b).FAULT = s.FAULT := rfl
@[simp] theorem State.setDT_freeIx (s : State) (b : Byte) :
    (s.setDT b).freeIx = s.freeIx := rfl

/-! ## State.setST -/

@[simp] theorem State.setST_V (s : State) (b : Byte) :
    (s.setST b).V = s.V := rfl
@[simp] theorem State.setST_pc (s : State) (b : Byte) :
    (s.setST b).pc = s.pc := rfl
@[simp] theorem State.setST_I (s : State) (b : Byte) :
    (s.setST b).I = s.I := rfl
@[simp] theorem State.setST_sp (s : State) (b : Byte) :
    (s.setST b).sp = s.sp := rfl
@[simp] theorem State.setST_DT (s : State) (b : Byte) :
    (s.setST b).DT = s.DT := rfl
@[simp] theorem State.setST_ST (s : State) (b : Byte) :
    (s.setST b).ST = b := rfl
@[simp] theorem State.setST_fb (s : State) (b : Byte) :
    (s.setST b).fb = s.fb := rfl
@[simp] theorem State.setST_mem (s : State) (b : Byte) :
    (s.setST b).mem = s.mem := rfl
@[simp] theorem State.setST_HALT (s : State) (b : Byte) :
    (s.setST b).HALT = s.HALT := rfl
@[simp] theorem State.setST_FAULT (s : State) (b : Byte) :
    (s.setST b).FAULT = s.FAULT := rfl
@[simp] theorem State.setST_freeIx (s : State) (b : Byte) :
    (s.setST b).freeIx = s.freeIx := rfl

/-! ## State.setFb -/

@[simp] theorem State.setFb_V (s : State) (fb : Framebuffer) :
    (s.setFb fb).V = s.V := rfl
@[simp] theorem State.setFb_pc (s : State) (fb : Framebuffer) :
    (s.setFb fb).pc = s.pc := rfl
@[simp] theorem State.setFb_I (s : State) (fb : Framebuffer) :
    (s.setFb fb).I = s.I := rfl
@[simp] theorem State.setFb_sp (s : State) (fb : Framebuffer) :
    (s.setFb fb).sp = s.sp := rfl
@[simp] theorem State.setFb_DT (s : State) (fb : Framebuffer) :
    (s.setFb fb).DT = s.DT := rfl
@[simp] theorem State.setFb_ST (s : State) (fb : Framebuffer) :
    (s.setFb fb).ST = s.ST := rfl
@[simp] theorem State.setFb_fb (s : State) (fb : Framebuffer) :
    (s.setFb fb).fb = fb := rfl
@[simp] theorem State.setFb_mem (s : State) (fb : Framebuffer) :
    (s.setFb fb).mem = s.mem := rfl
@[simp] theorem State.setFb_HALT (s : State) (fb : Framebuffer) :
    (s.setFb fb).HALT = s.HALT := rfl
@[simp] theorem State.setFb_FAULT (s : State) (fb : Framebuffer) :
    (s.setFb fb).FAULT = s.FAULT := rfl
@[simp] theorem State.setFb_freeIx (s : State) (fb : Framebuffer) :
    (s.setFb fb).freeIx = s.freeIx := rfl

/-! ## State.withPc -/

@[simp] theorem State.withPc_V (s : State) (p : Word) :
    (s.withPc p).V = s.V := rfl
@[simp] theorem State.withPc_pc (s : State) (p : Word) :
    (s.withPc p).pc = p := rfl
@[simp] theorem State.withPc_I (s : State) (p : Word) :
    (s.withPc p).I = s.I := rfl
@[simp] theorem State.withPc_sp (s : State) (p : Word) :
    (s.withPc p).sp = s.sp := rfl
@[simp] theorem State.withPc_DT (s : State) (p : Word) :
    (s.withPc p).DT = s.DT := rfl
@[simp] theorem State.withPc_ST (s : State) (p : Word) :
    (s.withPc p).ST = s.ST := rfl
@[simp] theorem State.withPc_fb (s : State) (p : Word) :
    (s.withPc p).fb = s.fb := rfl
@[simp] theorem State.withPc_mem (s : State) (p : Word) :
    (s.withPc p).mem = s.mem := rfl
@[simp] theorem State.withPc_HALT (s : State) (p : Word) :
    (s.withPc p).HALT = s.HALT := rfl
@[simp] theorem State.withPc_FAULT (s : State) (p : Word) :
    (s.withPc p).FAULT = s.FAULT := rfl
@[simp] theorem State.withPc_freeIx (s : State) (p : Word) :
    (s.withPc p).freeIx = s.freeIx := rfl

/-! ## State.storeAtI -/

@[simp] theorem State.storeAtI_V (s : State) (bs : List Byte) :
    (s.storeAtI bs).V = s.V := rfl
@[simp] theorem State.storeAtI_pc (s : State) (bs : List Byte) :
    (s.storeAtI bs).pc = s.pc := rfl
@[simp] theorem State.storeAtI_I (s : State) (bs : List Byte) :
    (s.storeAtI bs).I = s.I := rfl
@[simp] theorem State.storeAtI_sp (s : State) (bs : List Byte) :
    (s.storeAtI bs).sp = s.sp := rfl
@[simp] theorem State.storeAtI_DT (s : State) (bs : List Byte) :
    (s.storeAtI bs).DT = s.DT := rfl
@[simp] theorem State.storeAtI_ST (s : State) (bs : List Byte) :
    (s.storeAtI bs).ST = s.ST := rfl
@[simp] theorem State.storeAtI_fb (s : State) (bs : List Byte) :
    (s.storeAtI bs).fb = s.fb := rfl
@[simp] theorem State.storeAtI_mem (s : State) (bs : List Byte) :
    (s.storeAtI bs).mem = s.mem.writeBytes (dataAddr s) bs := rfl
@[simp] theorem State.storeAtI_HALT (s : State) (bs : List Byte) :
    (s.storeAtI bs).HALT = s.HALT := rfl
@[simp] theorem State.storeAtI_FAULT (s : State) (bs : List Byte) :
    (s.storeAtI bs).FAULT = s.FAULT := rfl
@[simp] theorem State.storeAtI_freeIx (s : State) (bs : List Byte) :
    (s.storeAtI bs).freeIx = s.freeIx := rfl

/-! ## pushFrame -/

@[simp] theorem pushFrame_V (s : State) (v : Word) :
    (pushFrame v s).V = s.V := rfl
@[simp] theorem pushFrame_pc (s : State) (v : Word) :
    (pushFrame v s).pc = s.pc := rfl
@[simp] theorem pushFrame_I (s : State) (v : Word) :
    (pushFrame v s).I = s.I := rfl
@[simp] theorem pushFrame_sp (s : State) (v : Word) :
    (pushFrame v s).sp = spDown s.sp := rfl
@[simp] theorem pushFrame_DT (s : State) (v : Word) :
    (pushFrame v s).DT = s.DT := rfl
@[simp] theorem pushFrame_ST (s : State) (v : Word) :
    (pushFrame v s).ST = s.ST := rfl
@[simp] theorem pushFrame_fb (s : State) (v : Word) :
    (pushFrame v s).fb = s.fb := rfl
@[simp] theorem pushFrame_mem (s : State) (v : Word) :
    (pushFrame v s).mem = s.mem.writeWord s.sp.toNat v := rfl
@[simp] theorem pushFrame_HALT (s : State) (v : Word) :
    (pushFrame v s).HALT = s.HALT := rfl
@[simp] theorem pushFrame_FAULT (s : State) (v : Word) :
    (pushFrame v s).FAULT = s.FAULT := rfl
@[simp] theorem pushFrame_freeIx (s : State) (v : Word) :
    (pushFrame v s).freeIx = s.freeIx := rfl

/-! ## popFrame -/

@[simp] theorem popFrame_V (s : State) :
    (popFrame s).V = s.V := rfl
@[simp] theorem popFrame_pc (s : State) :
    (popFrame s).pc = s.pc := rfl
@[simp] theorem popFrame_I (s : State) :
    (popFrame s).I = s.I := rfl
@[simp] theorem popFrame_sp (s : State) :
    (popFrame s).sp = spUp s.sp := rfl
@[simp] theorem popFrame_DT (s : State) :
    (popFrame s).DT = s.DT := rfl
@[simp] theorem popFrame_ST (s : State) :
    (popFrame s).ST = s.ST := rfl
@[simp] theorem popFrame_fb (s : State) :
    (popFrame s).fb = s.fb := rfl
@[simp] theorem popFrame_mem (s : State) :
    (popFrame s).mem = s.mem := rfl
@[simp] theorem popFrame_HALT (s : State) :
    (popFrame s).HALT = s.HALT := rfl
@[simp] theorem popFrame_FAULT (s : State) :
    (popFrame s).FAULT = s.FAULT := rfl
@[simp] theorem popFrame_freeIx (s : State) :
    (popFrame s).freeIx = s.freeIx := rfl

/-! ## loadBlock -/

@[simp] theorem loadBlock_pc (s : State) (x : Reg) :
    (loadBlock x s).pc = s.pc := by simp only [loadBlock]
@[simp] theorem loadBlock_I (s : State) (x : Reg) :
    (loadBlock x s).I = s.I := by simp only [loadBlock]
@[simp] theorem loadBlock_sp (s : State) (x : Reg) :
    (loadBlock x s).sp = s.sp := by simp only [loadBlock]
@[simp] theorem loadBlock_DT (s : State) (x : Reg) :
    (loadBlock x s).DT = s.DT := by simp only [loadBlock]
@[simp] theorem loadBlock_ST (s : State) (x : Reg) :
    (loadBlock x s).ST = s.ST := by simp only [loadBlock]
@[simp] theorem loadBlock_fb (s : State) (x : Reg) :
    (loadBlock x s).fb = s.fb := by simp only [loadBlock]
@[simp] theorem loadBlock_mem (s : State) (x : Reg) :
    (loadBlock x s).mem = s.mem := by simp only [loadBlock]
@[simp] theorem loadBlock_HALT (s : State) (x : Reg) :
    (loadBlock x s).HALT = s.HALT := by simp only [loadBlock]
@[simp] theorem loadBlock_FAULT (s : State) (x : Reg) :
    (loadBlock x s).FAULT = s.FAULT := by simp only [loadBlock]
@[simp] theorem loadBlock_freeIx (s : State) (x : Reg) :
    (loadBlock x s).freeIx = s.freeIx := by simp only [loadBlock]

/-! ## takeMemFault -/

@[simp] theorem takeMemFault_V (s : State) (c : FaultCause) (a : Nat) :
    (takeMemFault c a s).V = Config.faultV s.freeIx := rfl
@[simp] theorem takeMemFault_pc (s : State) (c : FaultCause) (a : Nat) :
    (takeMemFault c a s).pc = s.pc := rfl
@[simp] theorem takeMemFault_I (s : State) (c : FaultCause) (a : Nat) :
    (takeMemFault c a s).I = Config.faultI s.freeIx := rfl
@[simp] theorem takeMemFault_sp (s : State) (c : FaultCause) (a : Nat) :
    (takeMemFault c a s).sp = Config.faultSp s.freeIx := rfl
@[simp] theorem takeMemFault_DT (s : State) (c : FaultCause) (a : Nat) :
    (takeMemFault c a s).DT = Config.faultDT s.freeIx := rfl
@[simp] theorem takeMemFault_ST (s : State) (c : FaultCause) (a : Nat) :
    (takeMemFault c a s).ST = Config.faultST s.freeIx := rfl
@[simp] theorem takeMemFault_fb (s : State) (c : FaultCause) (a : Nat) :
    (takeMemFault c a s).fb = Config.faultFb s.freeIx := rfl
@[simp] theorem takeMemFault_mem (s : State) (c : FaultCause) (a : Nat) :
    (takeMemFault c a s).mem = Memory.ofBytes (Config.faultByte s.freeIx) := rfl
@[simp] theorem takeMemFault_HALT (s : State) (c : FaultCause) (a : Nat) :
    (takeMemFault c a s).HALT = Config.faultHALT s.freeIx := rfl
@[simp] theorem takeMemFault_FAULT (s : State) (c : FaultCause) (a : Nat) :
    (takeMemFault c a s).FAULT = { valid := true, cause := c, addr := BitVec.ofNat 17 a } := rfl
@[simp] theorem takeMemFault_freeIx (s : State) (c : FaultCause) (a : Nat) :
    (takeMemFault c a s).freeIx = s.freeIx + 1 := rfl

/-! ## Registers -/

/-- A register just written reads back, and every other is as before (10_state.md R10). -/
@[simp] theorem State.getV_setV (s : State) (r r' : Reg) (b : Byte) :
    (s.setV r b).getV r' = if r' = r then b else s.getV r' := by
  simp only [State.getV, State.setV, Fin.getElem_fin, Vector.getElem_set, Fin.val_inj]
  simp only [eq_comm]

@[simp] theorem State.getV_setFlag (s : State) (c : Bool) (r : Reg) :
    (s.setFlag c).getV r = if r = VF then flagByte c else s.getV r :=
  State.getV_setV s VF r _

/-- LD Vx, [I] writes V0..Vx from memory and no other register (42_index_memory.md R145). -/
@[simp] theorem State.getV_loadBlock (s : State) (x r : Reg) :
    (loadBlock x s).getV r = if r ≤ x then s.mem.read (dataAddr s + r.val) else s.getV r := by
  simp [State.getV, loadBlock]

@[simp] theorem State.getV_takeMemFault (s : State) (c : FaultCause) (a : Nat) (r : Reg) :
    (takeMemFault c a s).getV r = (Config.faultV s.freeIx)[r] := rfl

@[simp] theorem State.getV_setI (s : State) (a : Nat) (r : Reg) :
    (s.setI a).getV r = s.getV r := rfl

@[simp] theorem State.getV_storeAtI (s : State) (bs : List Byte) (r : Reg) :
    (s.storeAtI bs).getV r = s.getV r := rfl

@[simp] theorem State.getV_pushFrame (s : State) (v : Word) (r : Reg) :
    (pushFrame v s).getV r = s.getV r := rfl

@[simp] theorem State.getV_popFrame (s : State) (r : Reg) :
    (popFrame s).getV r = s.getV r := rfl

@[simp] theorem State.getV_setDT (s : State) (b : Byte) (r : Reg) :
    (s.setDT b).getV r = s.getV r := rfl

@[simp] theorem State.getV_setST (s : State) (b : Byte) (r : Reg) :
    (s.setST b).getV r = s.getV r := rfl

@[simp] theorem State.getV_setFb (s : State) (fb : Framebuffer) (r : Reg) :
    (s.setFb fb).getV r = s.getV r := rfl

@[simp] theorem State.getV_withPc (s : State) (p : Word) (r : Reg) :
    (s.withPc p).getV r = s.getV r := rfl

end Sys2Proof.Machine
end

