-- ==== Sys2Proof/Laws/Ops.lean ====
section
/-! SUPPORT. One lemma for each shared operation, saying once everything it can do; callers cite these and do not unfold
the operation. -/

namespace Sys2Proof.Machine

/-! ## The end of a step -/

theorem pc_plus (pc : Word) (k : Nat) : BitVec.ofNat 16 (pc.toNat + k) = pc + BitVec.ofNat 16 k := by
  simp [BitVec.ofNat_add]

/-- Next(pc + 2) (40_control.md R101). -/
theorem advance_eq (s : State) : advance s = .next (s.withPc (s.pc + 2)) := by
  simp only [advance, commitNext, pc_plus]
  rfl

/-- A skip (40_control.md R101). -/
theorem skipIf_eq (c : Bool) (s : State) :
    skipIf c s = .next (s.withPc (BitVec.ofNat 16 (s.pc.toNat + if c then 4 else 2))) := by
  cases c <;> rfl

/-! ## Range-checked access -/

theorem firstOutOfRange_of_ok {a n : Nat} (h : accessOk a n) : firstOutOfRange a n = none :=
  firstOutOfRange_eq_none.mpr h

theorem firstOutOfRange_of_bad {a n : Nat} (h : ¬ accessOk a n) :
    firstOutOfRange a n = some (firstBadByte a) := by
  simp only [accessOk, not_or] at h
  exact firstOutOfRange_eq_some.mpr ⟨h.1, by omega, rfl⟩

/-- An access in range has its effect. -/
theorem guarded_of_ok (c : FaultCause) {a n : Nat} (s : State) (r : Result) (h : accessOk a n) :
    guarded c a n s r = r := by
  simp [guarded, firstOutOfRange_of_ok h]

/-- An access out of range takes the fault of its first out-of-range byte, and nothing else. -/
theorem guarded_of_bad (c : FaultCause) {a n : Nat} (s : State) (r : Result) (h : ¬ accessOk a n) :
    guarded c a n s r = .next (takeMemFault c (firstBadByte a) s) := by
  simp [guarded, firstOutOfRange_of_bad h]

/-- Everything a range-checked access can answer. -/
theorem guarded_cases (c : FaultCause) (a n : Nat) (s : State) (r : Result) :
    (accessOk a n ∧ guarded c a n s r = r) ∨
      (¬ accessOk a n ∧ guarded c a n s r = .next (takeMemFault c (firstBadByte a) s)) := by
  by_cases h : accessOk a n
  · exact .inl ⟨h, guarded_of_ok c s r h⟩
  · exact .inr ⟨h, guarded_of_bad c s r h⟩

/-- A memory fault leaves the fault stop of 60_exceptions.md R202. -/
theorem takeMemFault_faultedWith (c : FaultCause) (a : Nat) (s : State) :
    s.faultedWith (takeMemFault c a s) c a := ⟨rfl, rfl⟩

/-! ## The stack -/

theorem toNat_spDown (sp : Word) : (spDown sp).toNat = if 2 ≤ sp.toNat then sp.toNat - 2 else 0 := by
  have := sp.isLt
  unfold spDown
  split <;> simp
  omega

theorem toNat_spUp (sp : Word) : (spUp sp).toNat = min (sp.toNat + 2) 0xFFFF := by
  have := sp.isLt
  unfold spUp
  split
  · simp
    omega
  · simp
    omega

/-- Pop undoes a Push that did not saturate (20_memory.md R51). -/
theorem spUp_spDown (sp : Word) (h : 2 ≤ sp.toNat) : spUp (spDown sp) = sp := by
  have := sp.isLt
  apply BitVec.eq_of_toNat_eq
  rw [toNat_spUp, toNat_spDown, if_pos h]
  omega

/-! ## The fetch and the step -/

theorem stopped_iff (s : State) : stopped s = true ↔ s.HALT = true ∨ s.FAULT.valid = true := by
  simp [stopped]

theorem stopped_of_running {s : State} (h : s.running) : stopped s = false := by
  simp [stopped, h.1, h.2]

theorem fetchWord_of_ok {s : State} (h : s.pc.toNat ≤ 0xFFE) :
    fetchWord s = .ok (s.mem.readWord s.pc.toNat) := by
  simp [fetchWord, firstOutOfRange_of_ok (show accessOk s.pc.toNat 2 from .inr (by omega))]

theorem fetchWord_of_bad {s : State} (h : 0xFFE < s.pc.toNat) :
    fetchWord s = .error (firstBadByte s.pc.toNat) := by
  have : ¬ accessOk s.pc.toNat 2 := by
    simp [accessOk]
    omega
  simp [fetchWord, firstOutOfRange_of_bad this]

/-- Everything a step can do (40_control.md R100). -/
theorem step_cases (s : State) :
    ((s.HALT = true ∨ s.FAULT.valid = true) ∧ step s = .next s) ∨
    (s.running ∧ 0xFFE < s.pc.toNat ∧
      step s = .next (takeMemFault .fetch (firstBadByte s.pc.toNat) s)) ∨
    (s.running ∧ s.pc.toNat ≤ 0xFFE ∧
      step s = exec (decode (s.mem.readWord s.pc.toNat)) s) := by
  by_cases hs : stopped s = true
  · exact .inl ⟨(stopped_iff s).mp hs, by simp [step, hs]⟩
  · have hr : s.running := by
      simpa [stopped, State.running] using hs
    by_cases hp : s.pc.toNat ≤ 0xFFE
    · exact .inr (.inr ⟨hr, hp, by simp [step, hs, fetchWord_of_ok hp]⟩)
    · have hp : 0xFFE < s.pc.toNat := by omega
      exact .inr (.inl ⟨hr, hp, by simp [step, hs, fetchWord_of_bad hp]⟩)

/-! ## The bytes the block operations move -/

theorem dataAddr_eq (s : State) : dataAddr s = s.I.toNat := rfl

/-- Bytes stored at I read back in order (42_index_memory.md R143, R144). -/
theorem read_storeAtI (s : State) (bs : List Byte) (k : Nat) (hk : k < bs.length)
    (h : s.I.toNat + bs.length ≤ 0x1000) : (s.storeAtI bs).mem.read (s.I.toNat + k) = bs[k] := by
  rw [State.storeAtI_mem, dataAddr_eq, Memory.read_writeBytes _ _ _ h]
  simp [hk]

/-- A byte outside the stored ones is as before. -/
theorem read_storeAtI_of_outside (s : State) (bs : List Byte) {a : Nat}
    (h : a < s.I.toNat ∨ s.I.toNat + bs.length ≤ a) : (s.storeAtI bs).mem.read a = s.mem.read a :=
  Memory.read_writeBytes_of_outside s.mem bs h

theorem length_blockBytes (x : Reg) (s : State) : (blockBytes x s).length = x.val + 1 := by
  simp [blockBytes, blockCount]

theorem getD_blockBytes (x : Reg) (s : State) (k : Reg) (h : k.val ≤ x.val) (d : Byte) :
    (blockBytes x s).getD k.val d = s.getV k := by
  have hk : k.val < (blockBytes x s).length := by rw [length_blockBytes]; omega
  rw [List.getD_eq_getElem _ _ hk]
  simp [blockBytes, State.getV]

/-- The three digits of a byte are its hundreds, tens and ones (42_index_memory.md R143). -/
theorem toNat_bcdBytes (v : Byte) :
    (bcdBytes v).map BitVec.toNat = [v.toNat / 100, v.toNat / 10 % 10, v.toNat % 10] := by
  have := v.isLt
  simp [bcdBytes]
  omega

/-! ## The power-on transaction -/

@[simp] theorem State.loadRom_V (s : State) (rom : List Byte) : (s.loadRom rom).V = State.reset.V := rfl
@[simp] theorem State.loadRom_pc (s : State) (rom : List Byte) : (s.loadRom rom).pc = 0x200 := rfl
@[simp] theorem State.loadRom_I (s : State) (rom : List Byte) : (s.loadRom rom).I = 0 := rfl
@[simp] theorem State.loadRom_sp (s : State) (rom : List Byte) : (s.loadRom rom).sp = 0x1FE := rfl
@[simp] theorem State.loadRom_DT (s : State) (rom : List Byte) : (s.loadRom rom).DT = 0 := rfl
@[simp] theorem State.loadRom_ST (s : State) (rom : List Byte) : (s.loadRom rom).ST = 0 := rfl
@[simp] theorem State.loadRom_fb (s : State) (rom : List Byte) : (s.loadRom rom).fb = Framebuffer.clear := rfl
@[simp] theorem State.loadRom_mem (s : State) (rom : List Byte) :
    (s.loadRom rom).mem = Memory.writeBytes [] 0x200 (rom.take 0xE00) := rfl
@[simp] theorem State.loadRom_HALT (s : State) (rom : List Byte) : (s.loadRom rom).HALT = false := rfl
@[simp] theorem State.loadRom_FAULT (s : State) (rom : List Byte) : (s.loadRom rom).FAULT = FaultStatus.none := rfl
@[simp] theorem State.loadRom_freeIx (s : State) (rom : List Byte) : (s.loadRom rom).freeIx = s.freeIx := rfl

/-- Everything `init` can do (70_reset_and_hazards.md R230). -/
theorem State.init_cases (s : State) (rom : List Byte) :
    (rom.length ≤ 0xE00 ∧ s.init rom = s.loadRom rom) ∨
      (0xE00 < rom.length ∧ s.init rom = takeMemFault .load 0x1000 (s.loadRom rom)) := by
  by_cases h : rom.length ≤ 0xE00
  · exact .inl ⟨h, if_pos h⟩
  · exact .inr ⟨by omega, if_neg h⟩

/-- The program region after the ROM's write, and every other byte at its power-on value (20_memory.md R54). -/
theorem State.read_loadRom (s : State) (rom : List Byte) (a : Nat) :
    (s.loadRom rom).mem.read a =
      if 0x200 ≤ a ∧ a < 0x200 + (rom.take 0xE00).length then (rom.take 0xE00).getD (a - 0x200) 0
      else Memory.unlisted a := by
  rw [State.loadRom_mem]
  split
  · rename_i h
    rw [Memory.read_writeBytes _ _ _ (by simp; omega), List.getD_eq_getElem _ _ (by omega)]
    have : a - 0x200 < (rom.take 0xE00).length := by omega
    simp_all
  · rename_i h
    rw [Memory.read_writeBytes_of_outside _ _ (by omega)]
    rfl

/-! ## Every instruction -/

/-- Everything an instruction answers is a next state (60_exceptions.md R200; log 7). The three shapes: the commit of a
next pc or of Halt over an updated state, and a memory fault. -/
theorem guarded_answers_next (c : FaultCause) (a n : Nat) (s : State) {r : Result}
    (h : ∃ t, r = .next t) : ∃ t, guarded c a n s r = .next t := by
  rcases guarded_cases c a n s r with ⟨-, hg⟩ | ⟨-, hg⟩
  · rwa [hg]
  · exact ⟨_, hg⟩

/-- What a DRW in range answers (43_display.md R166). -/
theorem execDrw_of_ok (x y : Reg) (n : RowCount) (s : State) (h : accessOk s.I.toNat n.val) :
    execDrw x y n s =
      advance ((s.setFb (drawnCanvas x y n s).fb).setFlag (drawnCanvas x y n s).collided) :=
  guarded_of_ok _ _ _ h

/-- What a DRW out of range answers: the fault, and nothing drawn (43_display.md R166; log 6). -/
theorem execDrw_of_bad (x y : Reg) (n : RowCount) (s : State) (h : ¬ accessOk s.I.toNat n.val) :
    execDrw x y n s = .next (takeMemFault .data (firstBadByte s.I.toNat) s) :=
  guarded_of_bad _ _ _ h

/-- The covered cells of a statement are the plotted cells of the rasterizer. -/
theorem spriteCovers_iff (x y : Byte) (rows : List Byte) (py : Fin 32) (px : Fin 64) :
    spriteCovers x y rows py px ↔ (py, px) ∈ plottedCells x y 0 rows := by
  rw [mem_plottedCells]
  constructor
  · rintro ⟨r, c, hr, hc, hp, hy, hx⟩
    refine ⟨r, c, hr, hc, ?_, Fin.ext ?_, Fin.ext ?_⟩
    · rw [List.getD_eq_getElem _ _ hr] at hp
      exact hp
    · simpa [spriteRow, Fin.ofNat] using hy
    · simpa [spriteCol, Fin.ofNat] using hx
  · rintro ⟨r, c, hr, hc, hp, hy, hx⟩
    refine ⟨r, c, hr, hc, ?_, ?_, ?_⟩
    · rw [List.getD_eq_getElem _ _ hr]
      exact hp
    · simpa [spriteRow, Fin.ofNat] using congrArg Fin.val hy
    · simpa [spriteCol, Fin.ofNat] using congrArg Fin.val hx

end Sys2Proof.Machine
end

