-- ==== Sys2Proof/Laws/PerInstr.lean ====
section
/-! SUPPORT. Statements made of every instruction, one lemma per constructor.

EncodingFitsTable: the word of a well-formed instruction has the fixed bits of its row of spec/opcode_table.json
(30_encoding.md R73), written here from the table and not from the decoder. -/

namespace Sys2Proof.Laws.EncodingFitsTable

/-- The mask and match of each row of spec/opcode_table.json, in the table's order. -/
def tableRow : Instr → Word × Word
  | .sys _ => (0xF000, 0x0000)
  | .cls => (0xFFFF, 0x00E0)
  | .ret => (0xFFFF, 0x00EE)
  | .jmp _ => (0xF000, 0x1000)
  | .call _ => (0xF000, 0x2000)
  | .skipEqImm _ _ => (0xF000, 0x3000)
  | .skipNeImm _ _ => (0xF000, 0x4000)
  | .skipEqReg _ _ => (0xF00F, 0x5000)
  | .ldImm _ _ => (0xF000, 0x6000)
  | .addImm _ _ => (0xF000, 0x7000)
  | .ldReg _ _ => (0xF00F, 0x8000)
  | .or _ _ => (0xF00F, 0x8001)
  | .and _ _ => (0xF00F, 0x8002)
  | .xor _ _ => (0xF00F, 0x8003)
  | .addReg _ _ => (0xF00F, 0x8004)
  | .subReg _ _ => (0xF00F, 0x8005)
  | .shr _ _ => (0xF00F, 0x8006)
  | .subN _ _ => (0xF00F, 0x8007)
  | .shl _ _ => (0xF00F, 0x800E)
  | .skipNeReg _ _ => (0xF00F, 0x9000)
  | .ldI _ => (0xF000, 0xA000)
  | .jmpV0 _ => (0xF000, 0xB000)
  | .rnd _ _ => (0xF000, 0xC000)
  | .drw _ _ _ => (0xF000, 0xD000)
  | .skipKey _ => (0xF0FF, 0xE09E)
  | .skipNotKey _ => (0xF0FF, 0xE0A1)
  | .ldVxDt _ => (0xF0FF, 0xF007)
  | .ldKey _ => (0xF0FF, 0xF00A)
  | .ldDtVx _ => (0xF0FF, 0xF015)
  | .ldStVx _ => (0xF0FF, 0xF018)
  | .addI _ => (0xF0FF, 0xF01E)
  | .ldFont _ => (0xF0FF, 0xF029)
  | .bcd _ => (0xF0FF, 0xF033)
  | .storeRegs _ => (0xF0FF, 0xF055)
  | .loadRegs _ => (0xF0FF, 0xF065)
  | .unknown _ => (0x0000, 0x0000)

/-- The encoded word, masked, is its row's match. -/
def Statement (i : Instr) : Prop :=
  i.wf = true → encode i &&& (tableRow i).1 = (tableRow i).2

/-! ## Placing a field leaves the fixed bits -/

theorem placeNNN_and (value : Word) (nnn : Addr12) :
    placeNNN value nnn &&& 0xF000 = value &&& 0xF000 := by
  apply BitVec.eq_of_getLsbD_eq
  intro i hi
  interval_cases i <;> simp [placeNNN]

theorem placeX_and (value : Word) (x : Reg) : placeX value x &&& 0xF0FF = value &&& 0xF0FF := by
  apply BitVec.eq_of_getLsbD_eq
  intro i hi
  interval_cases i <;> simp [placeX]

theorem placeXNN_and (value : Word) (x : Reg) (nn : Byte) :
    placeXNN value x nn &&& 0xF000 = value &&& 0xF000 := by
  apply BitVec.eq_of_getLsbD_eq
  intro i hi
  interval_cases i <;> simp [placeXNN, placeX]

theorem placeXY_and (value : Word) (x y : Reg) :
    placeXY value x y &&& 0xF00F = value &&& 0xF00F := by
  apply BitVec.eq_of_getLsbD_eq
  intro i hi
  interval_cases i <;> simp [placeXY, placeX]

theorem placeXYN_and (value : Word) (x y : Reg) (n : RowCount) :
    placeXYN value x y n &&& 0xF000 = value &&& 0xF000 := by
  apply BitVec.eq_of_getLsbD_eq
  intro i hi
  interval_cases i <;> simp [placeXYN, placeXY, placeX]

/-! ## The family -/

theorem sys (nnn : Addr12) : Statement (.sys nnn) :=
  fun _ => placeNNN_and _ _

theorem cls : Statement .cls :=
  fun _ => rfl

theorem ret : Statement .ret :=
  fun _ => rfl

theorem jmp (nnn : Addr12) : Statement (.jmp nnn) :=
  fun _ => placeNNN_and _ _

theorem call (nnn : Addr12) : Statement (.call nnn) :=
  fun _ => placeNNN_and _ _

theorem skipEqImm (x : Reg) (nn : Byte) : Statement (.skipEqImm x nn) :=
  fun _ => placeXNN_and _ _ _

theorem skipNeImm (x : Reg) (nn : Byte) : Statement (.skipNeImm x nn) :=
  fun _ => placeXNN_and _ _ _

theorem skipEqReg (x : Reg) (y : Reg) : Statement (.skipEqReg x y) :=
  fun _ => placeXY_and _ _ _

theorem ldImm (x : Reg) (nn : Byte) : Statement (.ldImm x nn) :=
  fun _ => placeXNN_and _ _ _

theorem addImm (x : Reg) (nn : Byte) : Statement (.addImm x nn) :=
  fun _ => placeXNN_and _ _ _

theorem ldReg (x : Reg) (y : Reg) : Statement (.ldReg x y) :=
  fun _ => placeXY_and _ _ _

theorem or (x : Reg) (y : Reg) : Statement (.or x y) :=
  fun _ => placeXY_and _ _ _

theorem and (x : Reg) (y : Reg) : Statement (.and x y) :=
  fun _ => placeXY_and _ _ _

theorem xor (x : Reg) (y : Reg) : Statement (.xor x y) :=
  fun _ => placeXY_and _ _ _

theorem addReg (x : Reg) (y : Reg) : Statement (.addReg x y) :=
  fun _ => placeXY_and _ _ _

theorem subReg (x : Reg) (y : Reg) : Statement (.subReg x y) :=
  fun _ => placeXY_and _ _ _

theorem shr (x : Reg) (y : Reg) : Statement (.shr x y) :=
  fun _ => placeXY_and _ _ _

theorem subN (x : Reg) (y : Reg) : Statement (.subN x y) :=
  fun _ => placeXY_and _ _ _

theorem shl (x : Reg) (y : Reg) : Statement (.shl x y) :=
  fun _ => placeXY_and _ _ _

theorem skipNeReg (x : Reg) (y : Reg) : Statement (.skipNeReg x y) :=
  fun _ => placeXY_and _ _ _

theorem ldI (nnn : Addr12) : Statement (.ldI nnn) :=
  fun _ => placeNNN_and _ _

theorem jmpV0 (nnn : Addr12) : Statement (.jmpV0 nnn) :=
  fun _ => placeNNN_and _ _

theorem rnd (x : Reg) (nn : Byte) : Statement (.rnd x nn) :=
  fun _ => placeXNN_and _ _ _

theorem drw (x : Reg) (y : Reg) (n : RowCount) : Statement (.drw x y n) :=
  fun _ => placeXYN_and _ _ _ _

theorem skipKey (x : Reg) : Statement (.skipKey x) :=
  fun _ => placeX_and _ _

theorem skipNotKey (x : Reg) : Statement (.skipNotKey x) :=
  fun _ => placeX_and _ _

theorem ldVxDt (x : Reg) : Statement (.ldVxDt x) :=
  fun _ => placeX_and _ _

theorem ldKey (x : Reg) : Statement (.ldKey x) :=
  fun _ => placeX_and _ _

theorem ldDtVx (x : Reg) : Statement (.ldDtVx x) :=
  fun _ => placeX_and _ _

theorem ldStVx (x : Reg) : Statement (.ldStVx x) :=
  fun _ => placeX_and _ _

theorem addI (x : Reg) : Statement (.addI x) :=
  fun _ => placeX_and _ _

theorem ldFont (x : Reg) : Statement (.ldFont x) :=
  fun _ => placeX_and _ _

theorem bcd (x : Reg) : Statement (.bcd x) :=
  fun _ => placeX_and _ _

theorem storeRegs (x : Reg) : Statement (.storeRegs x) :=
  fun _ => placeX_and _ _

theorem loadRegs (x : Reg) : Statement (.loadRegs x) :=
  fun _ => placeX_and _ _

theorem unknown (w : Word) : Statement (.unknown w) :=
  fun _ => BitVec.and_zero

end Sys2Proof.Laws.EncodingFitsTable
end

