-- ==== Sys2Proof/Tests/Slice0.lean ====
section
/-! SUPPORT. Tests of one step each, whose expected results are the vectors of 95_test_vectors.md or hand-worked from a
rule, and the witnesses of the obligations' hypotheses. -/

namespace Sys2Proof.Tests

open Sys2Proof Sys2Proof.Machine

/-! ## Helpers -/

/-- The power-on state with some registers set. -/
def withRegs (regs : List (Reg × Byte)) : State := regs.foldl (fun s p => s.setV p.1 p.2) State.reset

/-- Something about the next state of a result, if there is one. -/
def look {α : Type} (r : Result) (f : State → α) : Option α :=
  match r with
  | .next t => some (f t)
  | .fault _ => none
  | .refused _ => none

/-- A few registers, pc and HALT of a state. -/
def seen (rs : List Reg) (t : State) : List Byte × Word × Bool := (rs.map t.getV, t.pc, t.HALT)

/-- A state in the fault stop. -/
def faulted : State := { State.reset with FAULT := { valid := true, cause := .data, addr := 0x1000 } }

/-- A state whose HALT latch is set. -/
def haltedState : State := { State.reset with pc := 0x20A, HALT := true }

/-- A framebuffer with one cell set. -/
def oneCell (y : Fin 32) (x : Fin 64) : Framebuffer := Framebuffer.clear.toggle y x

/-! ## Words written out from the encodings of 30_encoding.md R73 -/

theorem test_decode_sys : decode 0x0123 = .sys 0x123 := by decide
theorem test_decode_sys_top : decode 0x0FFF = .sys 0xFFF := by decide
theorem test_decode_cls : decode 0x00E0 = .cls := by decide
theorem test_decode_ret : decode 0x00EE = .ret := by decide
theorem test_decode_jmp : decode 0x1ABC = .jmp 0xABC := by decide
theorem test_decode_call : decode 0x220A = .call 0x20A := by decide
theorem test_decode_skipEqImm : decode 0x3A7C = .skipEqImm 0xA 0x7C := by decide
theorem test_decode_skipNeImm : decode 0x4A7C = .skipNeImm 0xA 0x7C := by decide
theorem test_decode_skipEqReg : decode 0x5120 = .skipEqReg 1 2 := by decide
theorem test_decode_ldImm : decode 0x6AFE = .ldImm 0xA 0xFE := by decide
theorem test_decode_addImm : decode 0x7220 = .addImm 2 0x20 := by decide
theorem test_decode_ldReg : decode 0x8150 = .ldReg 1 5 := by decide
theorem test_decode_or : decode 0x8121 = .or 1 2 := by decide
theorem test_decode_and : decode 0x8122 = .and 1 2 := by decide
theorem test_decode_xor : decode 0x8123 = .xor 1 2 := by decide
theorem test_decode_addReg : decode 0x84F4 = .addReg 4 0xF := by decide
theorem test_decode_subReg : decode 0x8F15 = .subReg 0xF 1 := by decide
theorem test_decode_shr : decode 0x8F06 = .shr 0xF 0 := by decide
theorem test_decode_subN : decode 0x8127 = .subN 1 2 := by decide
theorem test_decode_shl : decode 0x8ABE = .shl 0xA 0xB := by decide
theorem test_decode_skipNeReg : decode 0x9120 = .skipNeReg 1 2 := by decide
theorem test_decode_ldI : decode 0xA300 = .ldI 0x300 := by decide
theorem test_decode_jmpV0 : decode 0xBFFF = .jmpV0 0xFFF := by decide
theorem test_decode_rnd : decode 0xC2FF = .rnd 2 0xFF := by decide
theorem test_decode_drw : decode 0xD125 = .drw 1 2 5 := by decide
theorem test_decode_skipKey : decode 0xE39E = .skipKey 3 := by decide
theorem test_decode_skipNotKey : decode 0xE1A1 = .skipNotKey 1 := by decide
theorem test_decode_ldVxDt : decode 0xF507 = .ldVxDt 5 := by decide
theorem test_decode_ldKey : decode 0xF30A = .ldKey 3 := by decide
theorem test_decode_ldDtVx : decode 0xF315 = .ldDtVx 3 := by decide
theorem test_decode_ldStVx : decode 0xF318 = .ldStVx 3 := by decide
theorem test_decode_addI : decode 0xF41E = .addI 4 := by decide
theorem test_decode_ldFont : decode 0xF029 = .ldFont 0 := by decide
theorem test_decode_bcd : decode 0xFA33 = .bcd 0xA := by decide
theorem test_decode_storeRegs : decode 0xFF55 = .storeRegs 0xF := by decide
theorem test_decode_loadRegs : decode 0xF265 = .loadRegs 2 := by decide
/-- One word of each unassigned space (R75). -/
theorem test_decode_unknown :
    [0x5121, 0x8AB8, 0x8ABF, 0x9AB1, 0xE39F, 0xF375, 0xFFFF].map (fun w => decode w) =
      [.unknown 0x5121, .unknown 0x8AB8, .unknown 0x8ABF, .unknown 0x9AB1, .unknown 0xE39F, .unknown 0xF375,
        .unknown 0xFFFF] := by decide
/-- The source's example of the encoder (S10). -/
theorem test_encode_add : encode (.addReg 0xA 0xB) = 0x8AB4 := by decide
theorem test_encode_drw : encode (.drw 1 2 5) = 0xD125 := by decide
/-- Bytes: the high byte first; a rest is returned; a lone byte is rejected by name. -/
theorem test_decode_bytes : decodeBytes [0x60, 0x05, 0x61] = .ok (.ldImm 0 5, [0x61]) := by rfl
theorem test_decode_bytes_truncated : decodeBytes [0x60] = .error .truncated := by rfl
theorem test_decode_bytes_empty : decodeBytes [] = .error .truncated := by rfl
theorem test_decode_table_word : decodeTableWord 16 0x8014 = some (.addReg 0 1) := by decide
theorem test_decode_table_word_too_long : decodeTableWord 24 0x8014 = none := by decide
/-- Of rows 4 to 35 no two share a word: where both masks look, the values differ (R74). -/
theorem test_table_rows_are_disjoint :
    disjointRows.Pairwise (fun a b => a.value &&& (a.mask &&& b.mask) ≠ b.value &&& (a.mask &&& b.mask)) := by
  decide

/-! ## WellFormed refuses what no word stands for (R75, R80) -/

theorem test_wf_sys_refused : (Instr.sys 0x0E0).wf = false ∧ (Instr.sys 0x0EE).wf = false := by decide
theorem test_wf_sys_accepted : (Instr.sys 0x0EF).wf = true := by decide
theorem test_wf_unknown_refused :
    (Instr.unknown 0x1234).wf = false ∧ (Instr.unknown 0x8007).wf = false ∧
      (Instr.unknown 0xF065).wf = false := by decide
theorem test_wf_unknown_accepted : (Instr.unknown 0x5121).wf = true := by decide

/-! ## Control transfer (95_test_vectors.md §2.2) -/

theorem test_sys : look (exec (.sys 0x123) { State.reset with pc := 0x300 }) (seen []) = some ([], 0x302, false) := by
  decide
theorem test_jmp_halts :
    look (exec (.jmp 0x300) { State.reset with pc := 0x300 }) (seen []) = some ([], 0x300, true) := by decide
theorem test_jmp_odd :
    look (exec (.jmp 0x301) State.reset) (seen []) = some ([], 0x301, false) := by decide
theorem test_call :
    look (exec (.call 0x20A) { State.reset with pc := 0x204, sp := 0x3FE })
      (fun t => (t.pc, t.sp, t.mem.read 0x3FE, t.mem.read 0x3FF)) = some (0x20A, 0x3FC, 0x02, 0x04) := by decide
theorem test_call_saturates :
    look (exec (.call 0x500) { State.reset with pc := 0x400, sp := 0 }) (fun t => (t.pc, t.sp)) =
      some (0x500, 0) := by decide
theorem test_ret :
    look (exec .ret { State.reset with sp := 0x1FC, mem := [(0x1FE, 0x02), (0x1FF, 0x04)] })
      (fun t => (t.pc, t.sp)) = some (0x206, 0x1FE) := by decide
/-- An empty-stack RET pops the program's own first word. -/
theorem test_ret_empty_stack :
    look (exec .ret { State.reset with mem := [(0x201, 0xEE)] }) (fun t => (t.pc, t.sp)) =
      some (0xF0, 0x200) := by decide
theorem test_skipEqImm :
    [look (exec (.skipEqImm 3 7) { withRegs [(3, 7)] with pc := 0x210 }) (fun t => t.pc),
      look (exec (.skipEqImm 3 8) { withRegs [(3, 7)] with pc := 0x210 }) (fun t => t.pc)] =
    [some 0x214, some 0x212] := by decide
theorem test_skipNeImm :
    [look (exec (.skipNeImm 3 7) { withRegs [(3, 7)] with pc := 0x210 }) (fun t => t.pc),
      look (exec (.skipNeImm 3 8) { withRegs [(3, 7)] with pc := 0x210 }) (fun t => t.pc)] =
    [some 0x212, some 0x214] := by decide
theorem test_skipEqReg :
    look (exec (.skipEqReg 1 2) { withRegs [(1, 0x40), (2, 0x40)] with pc := 0x300 }) (fun t => t.pc) =
      some 0x304 := by decide
theorem test_skipNeReg :
    look (exec (.skipNeReg 1 2) { withRegs [(1, 0x40), (2, 0x41)] with pc := 0x300 }) (fun t => t.pc) =
      some 0x304 := by decide
theorem test_jmpV0 : look (exec (.jmpV0 0xFFF) (withRegs [(0, 0xFF)])) (seen []) = some ([], 0x10FE, false) := by
  decide
/-- JP V0 to its own address is a hang, not a halt. -/
theorem test_jmpV0_never_halts :
    look (exec (.jmpV0 0x300) { State.reset with pc := 0x300 }) (seen []) = some ([], 0x300, false) := by decide

/-! ## Loads and the ALU (95_test_vectors.md §2.3) -/

theorem test_ldImm : look (exec (.ldImm 0xA 0xFF) State.reset) (seen [0xA, 0xF]) = some ([0xFF, 0], 0x202, false) := by
  decide
theorem test_addImm_wraps :
    look (exec (.addImm 2 0x20) (withRegs [(2, 0xF0)])) (seen [2, 0xF]) = some ([0x10, 0], 0x202, false) := by decide
theorem test_ldReg : look (exec (.ldReg 1 5) (withRegs [(5, 0x3C)])) (seen [1, 5]) = some ([0x3C, 0x3C], 0x202, false) := by
  decide
theorem test_or : look (exec (.or 1 2) (withRegs [(1, 0xF0), (2, 0x0F)])) (seen [1, 2]) = some ([0xFF, 0x0F], 0x202, false) := by
  decide
theorem test_and : look (exec (.and 1 2) (withRegs [(1, 0xF3), (2, 0x3F)])) (seen [1, 2]) = some ([0x33, 0x3F], 0x202, false) := by
  decide
theorem test_xor : look (exec (.xor 1 2) (withRegs [(1, 0xF3), (2, 0x3F)])) (seen [1, 2]) = some ([0xCC, 0x3F], 0x202, false) := by
  decide
theorem test_addReg :
    look (exec (.addReg 1 2) (withRegs [(1, 0xFF), (2, 0x01)])) (seen [1, 2, 0xF]) =
      some ([0x00, 0x01, 1], 0x202, false) := by decide
/-- The flag wins over the result in VF. -/
theorem test_addReg_vf :
    look (exec (.addReg 0xF 1) (withRegs [(0xF, 0x10), (1, 0xF5)])) (seen [0xF]) = some ([1], 0x202, false) := by decide
theorem test_subReg :
    look (exec (.subReg 1 2) (withRegs [(1, 3), (2, 5)])) (seen [1, 2, 0xF]) = some ([0xFE, 5, 0], 0x202, false) := by
  decide
theorem test_subReg_strict :
    look (exec (.subReg 1 2) (withRegs [(1, 0x40), (2, 0x40), (0xF, 9)])) (seen [1, 0xF]) =
      some ([0, 0], 0x202, false) := by decide
theorem test_shr :
    look (exec (.shr 1 2) (withRegs [(1, 0xAA), (2, 0x05)])) (seen [1, 2, 0xF]) = some ([2, 5, 1], 0x202, false) := by
  decide
theorem test_shr_vf :
    look (exec (.shr 0xF 0) (withRegs [(0, 3)])) (seen [0, 0xF]) = some ([3, 1], 0x202, false) := by decide
theorem test_subN :
    look (exec (.subN 1 2) (withRegs [(1, 3), (2, 5)])) (seen [1, 2, 0xF]) = some ([2, 5, 1], 0x202, false) := by decide
theorem test_subN_strict :
    look (exec (.subN 1 2) (withRegs [(0xF, 9)])) (seen [1, 0xF]) = some ([0, 0], 0x202, false) := by decide
theorem test_shl :
    look (exec (.shl 1 2) (withRegs [(2, 0x81)])) (seen [1, 2, 0xF]) = some ([2, 0x81, 1], 0x202, false) := by decide
theorem test_shl_vf :
    look (exec (.shl 0xF 0xF) (withRegs [(0xF, 0x81)])) (seen [0xF]) = some ([1], 0x202, false) := by decide

/-! ## The index register and memory (95_test_vectors.md §2.4) -/

theorem test_ldI : look (exec (.ldI 0x300) State.reset) (fun t => t.I) = some 0x300 := by decide
theorem test_addI_wraps :
    look (exec (.addI 4) { withRegs [(4, 1)] with I := 0xFFFF }) (fun t => (t.I, t.getV 0xF)) = some (0, 0) := by decide
/-- V0 = 0xFF gives FONT_BASE + 0x4FB: the whole register, not its low nibble. -/
theorem test_ldFont (s : State) (h : s.getV 0 = 0xFF) :
    look (exec (.ldFont 0) s) (fun t => t.I) = some (BitVec.ofNat 16 (Config.fontBase.val + 0x4FB)) := by
  simp [look, exec, execLdFont, advance_eq, fontAddr, Config.glyphSize, State.setI, h, State.withPc]
theorem test_bcd :
    look (exec (.bcd 0xA) { withRegs [(0xA, 0xFE)] with I := 0x300 })
      (fun t => (t.mem.readBytes 0x300 4, t.I)) = some ([2, 5, 4, 0], 0x300) := by decide
theorem test_bcd_faults :
    look (exec (.bcd 0) { State.reset with I := 0xFFE }) (fun t => (t.FAULT, t.pc)) =
      some ({ valid := true, cause := .data, addr := 0x1000 }, 0x200) := by decide
theorem test_storeRegs :
    look (exec (.storeRegs 3) { withRegs [(0, 0x11), (1, 0x22), (2, 0x33), (3, 0x44), (4, 0x55)] with I := 0x300 })
      (fun t => (t.mem.readBytes 0x300 5, t.I)) = some ([0x11, 0x22, 0x33, 0x44, 0], 0x300) := by decide
theorem test_loadRegs :
    look (exec (.loadRegs 2)
      { withRegs [(3, 0x55)] with I := 0x300, mem := [(0x300, 2), (0x301, 5), (0x302, 4), (0x303, 9)] })
      (seen [0, 1, 2, 3]) = some ([2, 5, 4, 0x55], 0x202, false) := by decide
theorem test_loadRegs_faults :
    look (exec (.loadRegs 0) { State.reset with I := 0x1000 }) (fun t => t.FAULT) =
      some { valid := true, cause := .data, addr := 0x1000 } := by decide
/-- With the default font at 0x050, glyph A lies at 0x082 and is F0 90 F0 90 90, and the bytes around the font are 0x00
(20_memory.md R49). -/
theorem test_font :
    [0x82, 0x83, 0x84, 0x85, 0x86].map (fun a => Memory.powerOnByte 0x50 defaultFontData a) =
        [0xF0, 0x90, 0xF0, 0x90, 0x90] ∧
      [0x4F, 0xA0, 0x200].map (fun a => Memory.powerOnByte 0x50 defaultFontData a) = [0, 0, 0] := by decide

/-! ## The display (95_test_vectors.md §2.5) -/

theorem test_cls :
    look (exec .cls { withRegs [(0xF, 1)] with fb := oneCell 0 0 }) (fun t => (t.fb.cell 0 0, t.getV 0xF)) =
      some (false, 1) := by decide
/-- At (0xFF, 0xFF) the one pixel falls on column 63 of row 31. -/
theorem test_drw_wraps :
    look (exec (.drw 0 1 1) { withRegs [(0, 0xFF), (1, 0xFF)] with I := 0x300, mem := [(0x300, 0x80)] })
      (fun t => (t.fb.cell 31 63, t.fb.cell 31 0, t.getV 0xF)) = some (true, false, 0) := by decide
theorem test_drw_collides :
    look (exec (.drw 0 1 1) { State.reset with I := 0x300, mem := [(0x300, 0xC0)], fb := oneCell 0 0 })
      (fun t => (t.fb.cell 0 0, t.fb.cell 0 1, t.getV 0xF)) = some (false, true, 1) := by decide
theorem test_drw_no_rows :
    look (exec (.drw 0 1 0) { withRegs [(0xF, 1)] with fb := oneCell 0 0, I := 0xFFFF })
      (fun t => (t.fb.cell 0 0, t.getV 0xF)) = some (true, 0) := by decide
theorem test_drw_faults :
    look (exec (.drw 0 1 2) { State.reset with I := 0xFFF }) (fun t => (t.FAULT, t.pc)) =
      some ({ valid := true, cause := .data, addr := 0x1000 }, 0x200) := by decide

/-! ## Timers, stubs and Unknown (95_test_vectors.md §2.6) -/

theorem test_ldVxDt : look (exec (.ldVxDt 5) { State.reset with DT := 0x3C, ST := 1 }) (seen [5]) = some ([0x3C], 0x202, false) := by
  decide
theorem test_ldDtVx : look (exec (.ldDtVx 3) (withRegs [(3, 0x3C)])) (fun t => (t.DT, t.ST)) = some (0x3C, 0) := by decide
theorem test_ldStVx : look (exec (.ldStVx 3) (withRegs [(3, 5)])) (fun t => (t.DT, t.ST)) = some (0, 5) := by decide
theorem test_rnd : look (exec (.rnd 2 0xFF) (withRegs [(2, 0x11)])) (seen [2]) = some ([0x11], 0x202, false) := by decide
theorem test_skipKey : look (exec (.skipKey 1) State.reset) (seen [1]) = some ([0], 0x202, false) := by decide
theorem test_skipNotKey : look (exec (.skipNotKey 1) State.reset) (seen [1]) = some ([0], 0x202, false) := by decide
theorem test_ldKey : look (exec (.ldKey 5) State.reset) (seen [5]) = some ([0], 0x202, false) := by decide
theorem test_unknown : look (exec (.unknown 0xFFFF) State.reset) (seen []) = some ([], 0x202, false) := by decide

/-! ## The step and the transactions (95_test_vectors.md §2.2, §2.7) -/

theorem test_step_runs_the_word :
    look (step { State.reset with mem := [(0x200, 0x60), (0x201, 0x05)] }) (seen [0]) = some ([5], 0x202, false) := by
  decide
theorem test_fetch_faults :
    look (step { State.reset with pc := 0xFFF }) (fun t => (t.FAULT, t.pc)) =
      some ({ valid := true, cause := .fetch, addr := 0x1000 }, 0xFFF) := by decide
theorem test_fetch_faults_high :
    look (step { State.reset with pc := 0x10FE }) (fun t => (t.FAULT, t.pc)) =
      some ({ valid := true, cause := .fetch, addr := 0x10FE }, 0x10FE) := by decide
theorem test_halted_step : look (step haltedState) (seen []) = some ([], 0x20A, true) := by decide
theorem test_set_pc_keeps_halt :
    look (transact .absent (.setPc 0x300) haltedState) (seen []) = some ([], 0x300, true) := by decide
theorem test_reset_ends_halt :
    look (transact .absent .reset { haltedState with sp := 0x1FC, I := 0x321 }) (fun t => (t.pc, t.sp, t.HALT, t.I)) =
      some (0x200, 0x1FE, false, 0x321) := by decide
theorem test_init_loads_the_rom :
    look (transact .absent (.init [0x60, 0x05]) haltedState) (fun t => (t.pc, t.HALT, t.mem.readBytes 0x200 3)) =
      some (0x200, false, [0x60, 0x05, 0]) := by decide
theorem test_withFetchWord_runs :
    look (step (State.reset.withFetchWord 16 0x6AFE)) (seen [0xA]) = some ([0xFE], 0x202, false) := by decide
theorem test_host_starts_at_the_default_rate : (Scheduler.start .paused State.reset).ips = 10 := by decide
/-- A tick whose pc is a breakpoint executes nothing (S9). -/
theorem test_breakpoint_pauses :
    (Scheduler.tick { Scheduler.start .running State.reset with breaks := [0x200] } []).run = .paused := by decide

/-! ## Memory -/

/-- A byte is read back, and writing what an unlisted address reads as removes its cell. -/
theorem test_memory_canonical :
    (Memory.write [(0x300, 1), (0x302, 2)] 0x301 7, Memory.write [(0x300, 1), (0x302, 2)] 0x300 0) =
      ([(0x300, 1), (0x301, 7), (0x302, 2)], [(0x302, 2)]) := by decide
theorem test_memory_wf :
    Memory.wf [(0x300, 1), (0xFFF, 2)] = true ∧ Memory.wf [(0x302, 1), (0x300, 2)] = false ∧
      Memory.wf [(0x300, 0)] = false ∧ Memory.wf [(0x1000, 1)] = false := by decide
theorem test_reset_memory_wf : State.reset.mem.wf = true := by decide

/-! ## Witnesses: concrete inputs that meet the hypotheses of each obligation that has some -/

/-- DecodeOfEncodeIsTheInstruction: at the two edges of SYS's gap and in an unassigned space. -/
theorem test_witness_DecodeOfEncode :
    (Instr.sys 0x0DF).wf = true ∧ (Instr.sys 0x0EF).wf = true ∧ (Instr.unknown 0xF066).wf = true ∧
      (Instr.drw 15 15 15).wf = true := by decide

/-- StepRunsTheDecodedInstruction, at the last fetchable pc. -/
theorem test_witness_StepRuns :
    State.running { State.reset with pc := 0xFFE } ∧
      ({ State.reset with pc := 0xFFE } : State).pc.toNat ≤ 0xFFE := ⟨⟨rfl, rfl⟩, by decide⟩

/-- StoppedStepChangesNothing: each of its two reasons alone. -/
theorem test_witness_StoppedStep :
    (haltedState.HALT = true ∧ haltedState.FAULT.valid = false) ∧
      (faulted.HALT = false ∧ faulted.FAULT.valid = true) := by decide

/-- FetchPastMemoryFaults: a pc whose second byte is out of range, and one whose first is. -/
theorem test_witness_FetchPast :
    (State.running { State.reset with pc := 0xFFF } ∧ 0xFFE < (0xFFF : Word).toNat ∧ firstBadByte 0xFFF = 0x1000) ∧
      (State.running { State.reset with pc := 0xFFFF } ∧ 0xFFE < (0xFFFF : Word).toNat ∧
        firstBadByte 0xFFFF = 0xFFFF) :=
  ⟨⟨⟨rfl, rfl⟩, by decide, rfl⟩, ⟨⟨rfl, rfl⟩, by decide, rfl⟩⟩

/-- A state other than reset that meets the invariant, at sp's upper bound. -/
theorem test_witness_Inv : State.Inv { State.reset with sp := 0xFFE, mem := [(0x300, 1)] } :=
  ⟨by decide, fun _ => by decide⟩

/-- StepKeepsTheInvariant: such a state, running, steps. -/
theorem test_witness_StepKeeps :
    State.Inv { State.reset with sp := 0, mem := [(0x200, 0x61)] } ∧
      ∃ t, step { State.reset with sp := 0, mem := [(0x200, 0x61)] } = .next t ∧ t.FAULT.valid = false :=
  ⟨⟨by decide, fun _ => by decide⟩, _, rfl, by decide⟩

/-- HostTransactionsKeepTheInvariant: a transaction that is no step, from an odd pc. -/
theorem test_witness_HostTransactions :
    State.Inv { State.reset with pc := 0x301 } ∧ (Transaction.setPc 0x300 ≠ .step) ∧
      ∃ t, transact .absent (.setPc 0x300) { State.reset with pc := 0x301 } = .next t :=
  ⟨⟨by decide, fun _ => by decide⟩, by decide, _, rfl⟩

/-- PowerOnValues and OversizedRomFaults: the longest ROM that fits and the shortest that does not. -/
theorem test_witness_rom_lengths :
    (List.replicate 0xE00 (7 : Byte)).length ≤ 0xE00 ∧ 0xE00 < (List.replicate 0xE01 (7 : Byte)).length := by
  simp only [List.length_replicate]
  omega

/-- PowerOnValues: an address above an empty ROM that no font base reaches. -/
theorem test_witness_zero_byte :
    (0xFFF : Nat) < 0x1000 ∧ 0x200 + ([] : List Byte).length ≤ 0xFFF ∧ Config.fontBase.val + 80 ≤ 0xFFF := by
  have := Config.fontBase.isLt
  simp only [List.length_nil]
  omega

/-- ResetVectorIsFetchedFirst: both resets, from a halted state. -/
theorem test_witness_ResetVector :
    (∃ t, transact .absent .reset haltedState = .next t ∧ t.FAULT.valid = false) ∧
      ∃ t, transact .absent (.init [0x60, 0x05]) haltedState = .next t ∧ t.FAULT.valid = false :=
  ⟨⟨_, rfl, rfl⟩, ⟨_, rfl, rfl⟩⟩

/-- WordsAreBigEndian: the last word of memory, fetched, pushed and popped. -/
theorem test_witness_Words :
    (0xFFE : Nat) + 1 ≤ 0xFFF ∧ (0xFFE : Word).toNat + 1 ≤ 0xFFF ∧ (0xFFC : Word).toNat + 3 ≤ 0xFFF ∧
      State.running { State.reset with pc := 0xFFE } := ⟨by decide, by decide, by decide, rfl, rfl⟩

/-- SoftResetValues: both clauses. FaultStopIsLeftOnlyByInit, TimerWritePort and SetPcSetsOnlyPc use the same states. -/
theorem test_witness_fault_stop : faulted.FAULT.valid = true ∧ haltedState.FAULT.valid = false := by decide

/-- SetPcSetsOnlyPc: HALT set, and HALT clear with the last fetchable address and the first that is not. -/
theorem test_witness_SetPc :
    (haltedState.FAULT.valid = false ∧ haltedState.HALT = true) ∧
      (State.reset.FAULT.valid = false ∧ State.reset.HALT = false ∧ (0xFFE : Word).toNat < 0xFFF ∧
        0xFFF ≤ (0xFFF : Word).toNat) := by decide

/-- FaultStopIsLeftOnlyByInit: a reset in the fault stop. -/
theorem test_witness_FaultStop :
    faulted.FAULT.valid = true ∧ (∀ rom, Transaction.reset ≠ .init rom) ∧
      ∃ t, transact .absent .reset faulted = .next t :=
  ⟨rfl, fun _ => by simp, _, rfl⟩

/-- HaltIsLeftOnlyByResetOrInit: a step while halted. -/
theorem test_witness_Halt :
    haltedState.HALT = true ∧ (Transaction.step ≠ .reset) ∧ (∀ rom, Transaction.step ≠ .init rom) ∧
      ∃ t, transact .absent .step haltedState = .next t :=
  ⟨rfl, by decide, fun _ => by simp, _, rfl⟩

/-- OnlyTheSelfJumpHalts: both sides of the equivalence occur. -/
theorem test_witness_OnlyTheSelfJump :
    (look (exec (.jmp 0x200) State.reset) (fun t => (t.FAULT.valid, t.HALT)) = some (false, true)) ∧
      (look (exec (.jmp 0x202) State.reset) (fun t => (t.FAULT.valid, t.HALT)) = some (false, false)) := by decide

/-- SpecialRegisterWriters: each of the four changes occurs. -/
theorem test_witness_SpecialRegisterWriters :
    look (exec (.ldI 0x300) State.reset) (fun t => (t.FAULT.valid, t.I != State.reset.I)) = some (false, true) ∧
      look (exec (.call 0x300) { State.reset with sp := 0x3FE }) (fun t => (t.FAULT.valid, t.sp)) =
        some (false, 0x3FC) ∧
      look (exec (.ldDtVx 1) (withRegs [(1, 9)])) (fun t => (t.FAULT.valid, t.DT)) = some (false, 9) ∧
      look (exec (.ldStVx 1) (withRegs [(1, 9)])) (fun t => (t.FAULT.valid, t.ST)) = some (false, 9) := by decide

/-- FramebufferAndMemoryWriters: both changes occur. -/
theorem test_witness_FramebufferAndMemoryWriters :
    look (exec .cls { State.reset with fb := oneCell 31 63 }) (fun t => (t.FAULT.valid, t.fb.cell 31 63)) =
        some (false, false) ∧
      look (exec (.storeRegs 0) { withRegs [(0, 9)] with I := 0x300 }) (fun t => (t.FAULT.valid, t.mem.read 0x300)) =
        some (false, 9) := by decide

/-- RegisterWriters: a register that the instruction may not write. -/
theorem test_witness_RegisterWriters :
    Instr.mayWrite (.addReg 1 2) 2 = false ∧
      look (exec (.addReg 1 2) (withRegs [(2, 9)])) (fun t => t.FAULT.valid) = some false := by decide

/-- FlagWritersLeaveZeroOrOne: a flag writer that runs. -/
theorem test_witness_FlagWriters :
    ∃ t, exec (.shl 1 2) (withRegs [(2, 0x80)]) = .next t ∧ t.FAULT.valid = false := ⟨_, rfl, rfl⟩

/-- FaultCausesByInstruction: a stack fault and a data fault. -/
theorem test_witness_FaultCauses :
    look (exec (.call 0) { State.reset with sp := 0xFFF }) (fun t => (t.FAULT.valid, t.FAULT.cause.code)) =
        some (true, 1) ∧
      look (exec (.loadRegs 15) { State.reset with I := 0xFF1 }) (fun t => (t.FAULT.valid, t.FAULT.cause.code)) =
        some (true, 2) := by decide

/-- StubsAndUnknownOnlyAdvance: an unassigned word. -/
theorem test_witness_Unknown : unassigned 0xE39F = true := by decide

/-- JumpSetsPcOrHalts: a target that is the jump's address and one that is not (they exclude each other). -/
theorem test_witness_Jump :
    (0x200 : Addr12).toNat = State.reset.pc.toNat ∧ (0x201 : Addr12).toNat ≠ State.reset.pc.toNat := by decide

/-- CallPushesItsOwnAddress: sp at 0, where it saturates, and at the last frame in range. -/
theorem test_witness_CallPushes : (0 : Word).toNat + 1 ≤ 0xFFF ∧ (0xFFE : Word).toNat + 1 ≤ 0xFFF := by decide

/-- ReturnGoesPastThePoppedAddress: the highest sp whose frame is in range. -/
theorem test_witness_Return :
    (0xFFE : Nat) = min ((0xFFC : Word).toNat + 2) 0xFFFF ∧ (0xFFE : Nat) + 1 ≤ 0xFFF := by decide

/-- CallThenReturnResumesAfterTheCall: both bounds of sp. -/
theorem test_witness_CallThenReturn :
    (2 ≤ (2 : Word).toNat ∧ (2 : Word).toNat + 1 ≤ 0xFFF) ∧
      (2 ≤ (0xFFE : Word).toNat ∧ (0xFFE : Word).toNat + 1 ≤ 0xFFF) := by decide

/-- StackFramePastMemoryFaults: the lowest sp of each clause, and the Pop that saturates. -/
theorem test_witness_StackFrame :
    0xFFF < (0xFFF : Word).toNat + 1 ∧
      ((0xFFF : Nat) = min ((0xFFD : Word).toNat + 2) 0xFFFF ∧ (0xFFF : Nat) < 0xFFF + 1) ∧
      ((0xFFFF : Nat) = min ((0xFFFF : Word).toNat + 2) 0xFFFF ∧ (0xFFF : Nat) < 0xFFFF + 1) := by decide

/-- CallNeverFaultsUnderTheInvariant, at sp's upper bound. -/
theorem test_witness_CallNeverFaults :
    State.Inv { State.reset with sp := 0xFFE } ∧ State.reset.FAULT.valid = false :=
  ⟨⟨by decide, fun _ => by decide⟩, rfl⟩

/-- The flag writers' results in a register that is not VF: AddRegistersCarriesIntoVF, SubtractionsFlagStrictlyGreater,
ShiftsTakeTheSecondOperand, DrawingTwiceRestoresTheFramebuffer. -/
theorem test_witness_not_VF : (14 : Reg) ≠ VF ∧ (0 : Reg) ≠ VF := by decide

/-- RedrawingAtTheSamePlaceRestoresTheFramebuffer: X = F and Y = F, with VF put back to the old coordinate. -/
theorem test_witness_Redrawing :
    let s : State := { withRegs [(0xF, 5)] with I := 0x300 }
    accessOk s.I.toNat (1 : RowCount).val ∧ s.V[VF] = s.getV VF := ⟨.inr (by decide), rfl⟩

/-- BcdStoresTheDecimalDigits: the last I in range and the first out of it. -/
theorem test_witness_Bcd : accessOk (0xFFD : Word).toNat 3 ∧ ¬ accessOk (0xFFE : Word).toNat 3 := by
  simp [accessOk]

/-- StoreRegistersWritesV0ToVx, LoadRegistersReadsV0ToVx and BlockAccessPastMemoryFaults: all sixteen registers at the
last I in range and the first out of it; a sprite of no rows has no byte out of range, one of 15 rows has. -/
theorem test_witness_block :
    (accessOk (0xFF0 : Word).toNat ((15 : Reg).val + 1) ∧ ¬ accessOk (0xFF1 : Word).toNat ((15 : Reg).val + 1)) ∧
      accessOk (0xFFFF : Word).toNat (0 : RowCount).val ∧ accessOk (0xFF1 : Word).toNat (15 : RowCount).val ∧
      ¬ accessOk (0xFF2 : Word).toNat (15 : RowCount).val := by
  simp [accessOk]

/-- LoadIsTheInverseOfStore: a store that runs. -/
theorem test_witness_LoadIsTheInverse :
    accessOk ({ withRegs [(0, 7)] with I := 0x300 } : State).I.toNat ((1 : Reg).val + 1) ∧
      ∃ t, exec (.storeRegs 1) { withRegs [(0, 7)] with I := 0x300 } = .next t :=
  ⟨.inr (by decide), _, rfl⟩

/-- StoreIsSeenByTheNextFetch: step 4 of program P4. -/
theorem test_witness_StoreIsSeen :
    let s : State :=
      { withRegs [(0, 0x12), (1, 0x08)] with pc := 0x206, I := 0x208, mem := [(0x206, 0xF1), (0x207, 0x55)] }
    s.running ∧ s.pc.toNat ≤ 0xFFE ∧ decode (s.mem.readWord s.pc.toNat) = .storeRegs 1 ∧
      s.I.toNat = s.pc.toNat + 2 ∧ 1 ≤ (1 : Reg).val ∧ accessOk s.I.toNat ((1 : Reg).val + 1) :=
  ⟨⟨rfl, rfl⟩, by decide, by decide, by decide, by decide, .inr (by decide)⟩

/-- DrawInvertsTheCoveredCells: the corner pixel is covered with wraparound, its neighbour is not. -/
theorem test_witness_Draw :
    accessOk (0xFFF : Word).toNat (1 : RowCount).val ∧ spriteCovers 0xFF 0xFF [0x80] 31 63 ∧
      ¬ spriteCovers 0xFF 0xFF [0x80] 31 0 := by
  refine ⟨.inr (by decide), ⟨0, 0, by decide, by decide, by decide, by decide, by decide⟩, ?_⟩
  rintro ⟨r, c, hr, hc, hp, -, hx⟩
  obtain rfl : r = 0 := by simpa using hr
  interval_cases c <;> simp_all +decide

/-- DrawSpriteXorsAndReportsCollision: the longest sprite. -/
theorem test_witness_DrawSprite : (List.replicate 15 (0xFF : Byte)).length ≤ 15 := by decide

/-- BreakpointsToggleAndPauseAtTickEntry: a running host at a breakpoint. -/
theorem test_witness_Breakpoint :
    let h : Scheduler := { Scheduler.start .running State.reset with breaks := [0x200] }
    h.run ≠ .terminated ∧ h.stopping = false ∧ h.block.pc.toNat ∈ h.breaks := by decide

/-- HostStepExecutesExactlyOneStep: a paused host whose block does not halt, and one whose block does. -/
theorem test_witness_HostStep :
    let h : Scheduler := Scheduler.start .paused (State.reset.withFetchWord 16 0x6005)
    let h' : Scheduler := Scheduler.start .paused (State.reset.withFetchWord 16 0x1200)
    (h.run = .paused ∧ h.skip = false ∧ h.stopping = false ∧ (stepBlock h.block).HALT = false) ∧
      (h'.run = .paused ∧ h'.skip = false ∧ h'.stopping = false ∧ (stepBlock h'.block).HALT = true) := by decide

end Sys2Proof.Tests
end

section
/-! SUPPORT. Decoding word by word (30_encoding.md R73, R74): the row that `decode` finds gives the instruction. -/

namespace Sys2Proof

/-- R74's procedure stops at the first row that matches, and that row builds the instruction. -/
theorem decode_eq_build_of_find {w : Word} {r : OpcodeRow}
    (h : opcodeRows.find? (fun r => r.hits w) = some r) : decode w = r.build w := by
  simp only [decode, h]

/-- Settles O4: rows 6XNN and 8XY4, the two that the source's example fixes, are the first to match its words. -/
theorem scenarioWordsDecode : Obligations.ScenarioWordsDecode := by
  unfold Obligations.ScenarioWordsDecode
  refine ⟨?_, ?_, ?_⟩
  · exact decode_eq_build_of_find (r := ⟨0xF000, 0x6000, fun w => .ldImm (fieldX w) (fieldNN w)⟩) rfl
  · exact decode_eq_build_of_find (r := ⟨0xF000, 0x6000, fun w => .ldImm (fieldX w) (fieldNN w)⟩) rfl
  · exact decode_eq_build_of_find (r := ⟨0xF00F, 0x8004, fun w => .addReg (fieldX w) (fieldY w)⟩) rfl

end Sys2Proof
end

section
/-! SUPPORT. The word 6XNN is decoded by its class digit (30_encoding.md R73, R74), and LD Vx, NN executed
(41_alu.md R120). -/

namespace Sys2Proof

/-! ## Fields and the class digit as numbers -/

theorem val_fieldX (w : Word) : (fieldX w).val = w.toNat / 0x100 % 16 := by
  simp [fieldX, Nat.shiftRight_eq_div_pow]

theorem toNat_fieldNN (w : Word) : (fieldNN w).toNat = w.toNat % 0x100 := by
  simp [fieldNN]

/-- The mask of a class row keeps the class digit w[15:12] and nothing else. -/
theorem and_classMask_eq (w : Word) : w &&& 0xF000 = BitVec.ofNat 16 (w.toNat / 0x1000 * 0x1000) := by
  have hshift : w &&& (0xF000 : Word) = w >>> 12 <<< 12 := by
    refine BitVec.eq_of_getLsbD_eq fun i hi => ?_
    interval_cases i <;> simp
  rw [hshift]
  refine BitVec.eq_of_toNat_eq ?_
  simp [Nat.shiftRight_eq_div_pow, Nat.shiftLeft_eq]

/-! ## The row of a class -/

/-- A row that fixes the class digit misses every word of another class. -/
theorem OpcodeRow.hits_eq_false_of_class_ne {r : OpcodeRow} {w : Word} (hmask : r.mask &&& 0xF000 = 0xF000)
    (hne : r.value &&& 0xF000 ≠ w &&& 0xF000) : r.hits w = false := by
  refine beq_eq_false_iff_ne.mpr fun h => hne ?_
  rw [← h, BitVec.and_assoc, hmask]

/-- Every word of class 6 is a 6XNN: the eight rows before that row in R74's procedure are of other classes. -/
theorem decode_eq_ldImm_of_class {w : Word} (h : w.toNat / 0x1000 = 6) :
    decode w = .ldImm (fieldX w) (fieldNN w) := by
  have hw : w &&& 0xF000 = 0x6000 := by
    rw [and_classMask_eq, h]
    rfl
  have hearlier : ∀ r ∈ opcodeRows.take 8, r.mask &&& 0xF000 = 0xF000 ∧ r.value &&& 0xF000 ≠ 0x6000 := by
    decide
  refine decode_eq_build_of_find (r := ⟨0xF000, 0x6000, fun w => .ldImm (fieldX w) (fieldNN w)⟩) ?_
  refine List.find?_eq_some_iff_append.mpr
    ⟨beq_iff_eq.mpr hw, opcodeRows.take 8, opcodeRows.drop 9, rfl, fun r hr => ?_⟩
  obtain ⟨hmask, hvalue⟩ := hearlier r hr
  simp [OpcodeRow.hits_eq_false_of_class_ne hmask (hw ▸ hvalue)]

/-- The word 6XNN, written as a number, is LD Vx, NN. -/
theorem decode_word_ldImm (x : Reg) (nn : Byte) :
    decode (BitVec.ofNat 16 (0x6000 + 0x100 * x.val + nn.toNat)) = .ldImm x nn := by
  have hx := x.isLt
  have hnn := nn.isLt
  have hw : (BitVec.ofNat 16 (0x6000 + 0x100 * x.val + nn.toNat)).toNat = 0x6000 + 0x100 * x.val + nn.toNat := by
    rw [BitVec.toNat_ofNat]
    omega
  rw [decode_eq_ldImm_of_class (by omega)]
  congr 1
  · refine Fin.ext ?_
    rw [val_fieldX]
    omega
  · refine BitVec.eq_of_toNat_eq ?_
    rw [toNat_fieldNN]
    omega

namespace Machine

/-! ## The execution -/

/-- What LD Vx, NN answers (41_alu.md R120). -/
theorem exec_ldImm (x : Reg) (nn : Byte) (s : State) :
    exec (.ldImm x nn) s = .next ((s.setV x nn).withPc (s.pc + 2)) :=
  advance_eq (s.setV x nn)

/-- Writing one register and moving on changes that register and pc alone. -/
theorem State.changesOnly_withPc_setV (s : State) (r : Reg) (b : Byte) (p : Word) :
    s.changesOnly ((s.setV r b).withPc p) (fun e => e = .pc ∨ e = .v r) := by
  intro e he
  cases e with
  | pc => exact absurd (.inl rfl) he
  | v r' =>
    have hr : r' ≠ r := fun h => he (.inr (congrArg Element.v h))
    simp [State.agreeAt, hr]
  | index | sp | dt | st | cell _ _ | byte _ | halt | fault => rfl

/-- Settles O38: the decoder by the word's class digit, the rest by the state's register rules. -/
theorem loadImmediate : Obligations.LoadImmediate := by
  unfold Obligations.LoadImmediate
  intro s x nn
  refine ⟨decode_word_ldImm x nn, _, exec_ldImm x nn s, ?_, ?_, State.changesOnly_withPc_setV s x nn _⟩
  · simp
  · simp

end Machine

end Sys2Proof
end

section
/-! SUPPORT. CLS executed (43_display.md R165, R167): a new framebuffer and the next pc, and nothing else. -/

namespace Sys2Proof.Machine

/-- What CLS answers (43_display.md R167). -/
theorem exec_cls (s : State) : exec .cls s = .next ((s.setFb Framebuffer.clear).withPc (s.pc + 2)) :=
  advance_eq (s.setFb Framebuffer.clear)

/-- Replacing the framebuffer and moving on changes cells and pc alone. -/
theorem State.changesOnly_withPc_setFb (s : State) (fb : Framebuffer) (p : Word) :
    s.changesOnly ((s.setFb fb).withPc p) (fun e => e = .pc ∨ ∃ y x, e = .cell y x) := by
  intro e he
  cases e with
  | pc => exact absurd (.inl rfl) he
  | cell y x => exact absurd (.inr ⟨y, x, rfl⟩) he
  | v _ | index | sp | dt | st | byte _ | halt | fault => rfl

/-- Settles O53: CLS installs the clear framebuffer, whose every cell is 0, and the frame is that of any new
framebuffer. -/
theorem clearScreenZeroesEveryCell : Obligations.ClearScreenZeroesEveryCell := by
  unfold Obligations.ClearScreenZeroesEveryCell
  intro s
  refine ⟨_, exec_cls s, fun y x => ?_, State.withPc_pc _ _, State.changesOnly_withPc_setFb s _ _⟩
  rw [State.withPc_fb, State.setFb_fb, Framebuffer.cell_clear]

end Sys2Proof.Machine
end

section
/-! SUPPORT. The reset vector (70_reset_and_hazards.md R232): both resets leave pc = 0x200 and, outside the fault stop,
HALT = 0, so that the next step runs the word there (40_control.md R100). -/

namespace Sys2Proof.Machine

/-- The word at a as a number, the byte at a first (20_memory.md R42). -/
theorem Memory.readWord_eq_ofNat (m : Memory) (a : Nat) :
    m.readWord a = BitVec.ofNat 16 (0x100 * (m.read a).toNat + (m.read (a + 1)).toNat) := by
  rw [← toNat_wordOfBytes, BitVec.ofNat_toNat, BitVec.setWidth_eq]
  rfl

/-- The third case of `step_cases`, which the other two exclude. -/
theorem step_of_running {s : State} (hrun : s.running) (hpc : s.pc.toNat ≤ 0xFFE) :
    step s = exec (decode (s.mem.readWord s.pc.toNat)) s := by
  obtain ⟨hhalt, hfault⟩ := hrun
  obtain ⟨hstopped, -⟩ | ⟨-, hbad, -⟩ | ⟨-, -, hstep⟩ := step_cases s
  · simp [hhalt, hfault] at hstopped
  · omega
  · exact hstep

/-- What a soft reset leaves outside the fault stop (70_reset_and_hazards.md R231). -/
theorem State.softReset_of_not_faulted {s : State} (h : s.FAULT.valid = false) :
    s.softReset = { s with pc := 0x200, sp := 0x1FE, fb := Framebuffer.clear, HALT := false } := by
  simp [State.softReset, h]

/-- A ROM of any length, too long included (70_reset_and_hazards.md R230; log 9). -/
theorem State.init_pc (s : State) (rom : List Byte) : (s.init rom).pc = 0x200 := by
  obtain ⟨-, h⟩ | ⟨-, h⟩ := s.init_cases rom
  · rw [h, State.loadRom_pc]
  · rw [h, takeMemFault_pc, State.loadRom_pc]

/-- `init` leaves HALT at its power-on value unless it faults, where HALT is a free value (60_exceptions.md R202). -/
theorem State.init_HALT {s : State} {rom : List Byte} (hvalid : (s.init rom).FAULT.valid = false) :
    (s.init rom).HALT = false := by
  obtain ⟨-, h⟩ | ⟨-, h⟩ := s.init_cases rom
  · rw [h, State.loadRom_HALT]
  · simp [h] at hvalid

/-- Both resets set pc to the reset vector and clear HALT outside the fault stop. -/
theorem transact_reset_or_init {x : Transaction} {s : State} (agent : Config.TimerAgent)
    (hx : (x = .reset ∧ s.FAULT.valid = false) ∨ (∃ rom, x = .init rom)) :
    ∃ t, transact agent x s = .next t ∧ t.pc = 0x200 ∧ (t.FAULT.valid = false → t.HALT = false) := by
  obtain ⟨rfl, hvalid⟩ | ⟨rom, rfl⟩ := hx
  · refine ⟨s.softReset, rfl, ?_, fun _ => ?_⟩ <;> rw [State.softReset_of_not_faulted hvalid]
  · exact ⟨s.init rom, rfl, s.init_pc rom, State.init_HALT⟩

/-- Settles O15: a reset that has not faulted leaves a running block with pc = 0x200, and a running block fetches the
word at its pc. -/
theorem resetVectorIsFetchedFirst : Obligations.ResetVectorIsFetchedFirst := by
  unfold Obligations.ResetVectorIsFetchedFirst
  intro agent s x hx
  obtain ⟨t, ht, hpc, hhalt⟩ := transact_reset_or_init agent hx
  have haddr : t.pc.toNat = 0x200 := congrArg BitVec.toNat hpc
  refine ⟨t, ht, hpc, fun hvalid => ?_⟩
  rw [step_of_running ⟨hhalt hvalid, hvalid⟩ (by omega), haddr, Memory.readWord_eq_ofNat]

end Sys2Proof.Machine
end

section
/-! SUPPORT. The decoder and the encoder (30_encoding.md R73 to R75, R80): which row a word matches, the fields of a
placed word, and the two round trips. -/

namespace Sys2Proof

/-! ## The row of a word (R74) -/

/-- Two rows whose values differ where both masks look match no common word. -/
theorem OpcodeRow.hits_eq_false_of_conflict {r r' : OpcodeRow} {w : Word} (h : r.hits w = true)
    (hne : r'.value &&& r.mask ≠ r.value &&& r'.mask) : r'.hits w = false := by
  refine beq_eq_false_iff_ne.mpr fun h' => hne ?_
  rw [← beq_iff_eq.mp h, ← h', BitVec.and_assoc, BitVec.and_assoc, BitVec.and_comm r'.mask]

/-- Every row but 0NNN, row 2 of the procedure, differs from each earlier row where both masks look. -/
theorem opcodeRows_conflict : ∀ k : Fin 35, k ≠ 2 → ∀ j < k,
    opcodeRows[j].value &&& opcodeRows[k].mask ≠ opcodeRows[k].value &&& opcodeRows[j].mask := by
  decide

/-- A row other than 0NNN that matches a word is the one the procedure stops at. -/
theorem decode_eq_build_of_hits (k : Fin 35) (hk : k ≠ 2) {w : Word} (h : opcodeRows[k].hits w = true) :
    decode w = opcodeRows[k].build w := by
  refine decode_eq_build_of_find (List.find?_eq_some_iff_getElem.mpr ⟨h, k, k.isLt, rfl, fun j hj => ?_⟩)
  have hconflict := opcodeRows_conflict k hk ⟨j, by omega⟩ hj
  simpa using OpcodeRow.hits_eq_false_of_conflict h hconflict

/-- An exact row matches its own word alone. -/
theorem OpcodeRow.exact_hits_eq_false {v w : Word} {f : Word → Instr} (h : w ≠ v) :
    OpcodeRow.hits ⟨0xFFFF, v, f⟩ w = false := by
  refine beq_eq_false_iff_ne.mpr ?_
  rwa [show w &&& 0xFFFF = w from BitVec.and_allOnes]

/-- A 0NNN word that is neither exact form is a SYS. -/
theorem decode_eq_sys {w : Word} (h : w &&& 0xF000 = 0) (hcls : w ≠ 0x00E0) (hret : w ≠ 0x00EE) :
    decode w = .sys (fieldNNN w) := by
  refine decode_eq_build_of_find (r := ⟨0xF000, 0x0000, fun w => .sys (fieldNNN w)⟩) ?_
  refine List.find?_eq_some_iff_append.mpr
    ⟨beq_iff_eq.mpr h, exactRows, disjointRows, rfl, fun r hr => ?_⟩
  obtain rfl | rfl : r = _ ∨ r = _ := by simpa [exactRows] using hr
  · exact congrArg (!·) (OpcodeRow.exact_hits_eq_false hcls)
  · exact congrArg (!·) (OpcodeRow.exact_hits_eq_false hret)

/-- What the procedure answers: the first matching row's instruction, or Unknown where no row matches. -/
theorem decode_cases (w : Word) :
    (∃ r ∈ opcodeRows, r.hits w = true ∧ decode w = r.build w) ∨
      ((∀ r ∈ opcodeRows, r.hits w = false) ∧ decode w = .unknown w) := by
  cases hfind : opcodeRows.find? (fun r => r.hits w) with
  | none =>
    exact .inr ⟨by simpa only [Bool.not_eq_true] using List.find?_eq_none.mp hfind, by simp only [decode, hfind]⟩
  | some r =>
    have hhits := List.find?_some hfind
    exact .inl ⟨r, List.mem_of_find?_eq_some hfind, hhits, decode_eq_build_of_find hfind⟩

/-- Unknown is exactly a word that no row matches: no row builds an Unknown. -/
theorem decode_eq_unknown_iff (w : Word) :
    decode w = .unknown w ↔ ∀ r ∈ opcodeRows, r.hits w = false := by
  have hbuild : ∀ r ∈ opcodeRows, r.build w ≠ .unknown w := by
    simp [opcodeRows, exactRows, sysRow, disjointRows, classRows, aluRows, miscRows]
  obtain ⟨r, hr, hhits, hdecode⟩ | ⟨hmiss, hdecode⟩ := decode_cases w
  · simp only [hdecode, hbuild r hr, false_iff]
    exact fun h => by simp [h r hr] at hhits
  · exact ⟨fun _ => hmiss, fun _ => hdecode⟩

/-! ## The masks of the rows, as numbers -/

/-- A mask of the class digit and of the k lowest bits fixes these two parts of a word. -/
theorem and_digitAndLow_eq_iff (w : Word) {k : Nat} (hk : k ≤ 12) (v : Nat) :
    w.toNat &&& (0xF000 + (2 ^ k - 1)) = v ↔
      w.toNat / 0x1000 = v / 0x1000 ∧ w.toNat % 2 ^ k = v % 0x1000 := by
  have hw := w.isLt
  have hpow : 2 ^ k ≤ 2 ^ 12 := Nat.pow_le_pow_right (by omega) hk
  have hlow : w.toNat % 2 ^ k < 2 ^ 12 := (Nat.mod_lt _ (Nat.two_pow_pos k)).trans_le hpow
  have hmask : 0xF000 + (2 ^ k - 1) = 0xF000 ||| (2 ^ k - 1) :=
    Nat.shiftLeft_add_eq_or_of_lt (a := 15) (i := 12) (by omega)
  have hclass : w.toNat &&& 0xF000 = (w.toNat / 0x1000) <<< 12 := by
    have := congrArg BitVec.toNat (and_classMask_eq w)
    rw [Nat.shiftLeft_eq]
    simpa [Nat.mod_eq_of_lt (show w.toNat / 0x1000 * 0x1000 < 65536 by omega)] using this
  rw [hmask, Nat.and_or_distrib_left, hclass, Nat.and_two_pow_sub_one_eq_mod,
    ← Nat.shiftLeft_add_eq_or_of_lt hlow, Nat.shiftLeft_eq]
  omega

theorem OpcodeRow.hits_eq_false_iff (r : OpcodeRow) (w : Word) :
    r.hits w = false ↔ w.toNat &&& r.mask.toNat ≠ r.value.toNat := by
  simp [OpcodeRow.hits, ← BitVec.toNat_inj]

/-- Settles O3: each row's mask fixes the class digit and some low bits, so that, class by class, the words that all 35
rows miss are read off. -/
theorem unknownIsExactlyTheUnassignedSpaces : Obligations.UnknownIsExactlyTheUnassignedSpaces := by
  unfold Obligations.UnknownIsExactlyTheUnassignedSpaces
  intro w
  have hw := w.isLt
  have hclass := and_digitAndLow_eq_iff w (k := 0) (by omega)
  have halu := and_digitAndLow_eq_iff w (k := 4) (by omega)
  have hmisc := and_digitAndLow_eq_iff w (k := 8) (by omega)
  have hexact := and_digitAndLow_eq_iff w (k := 12) (by omega)
  norm_num only [Nat.mod_one] at hclass halu hmisc hexact
  have hdigit : w.toNat / 0x1000 < 16 := by omega
  rw [decode_eq_unknown_iff]
  simp only [opcodeRows, exactRows, sysRow, disjointRows, classRows, aluRows, miscRows, List.cons_append,
    List.nil_append, List.mem_cons, List.not_mem_nil, or_false, forall_eq_or_imp, forall_eq, not_or, not_and, ne_eq,
    and_true, OpcodeRow.hits_eq_false_iff, BitVec.ofNat_eq_ofNat, BitVec.toNat_ofNat, Nat.reducePow, Nat.reduceMod,
    Nat.reduceDiv, Nat.zero_mod, Nat.zero_div, hclass, halu, hmisc, hexact]
  clear hclass halu hmisc hexact
  generalize w.toNat / 0x1000 = c at hdigit ⊢
  interval_cases c <;> simp
  -- Only class 8 lists the missed digits themselves, where its rows list the digits they match.
  omega

/-- The five spaces, written in WellFormed.lean by the word's fields, are the words that decode to Unknown. -/
theorem decode_eq_unknown_iff_unassigned (w : Word) : decode w = .unknown w ↔ unassigned w = true := by
  rw [unknownIsExactlyTheUnassignedSpaces w]
  have hw := w.isLt
  have hdigit : w.toNat / 0x1000 % 16 = w.toNat / 0x1000 := by omega
  simp [unassigned, ← BitVec.toNat_inj, Nat.shiftRight_eq_div_pow, hdigit, -Nat.div_eq_zero_iff, or_assoc]

/-! ## Laying a word's fields over its fixed bits (R80) -/

theorem ofFin_fieldX (w : Word) : BitVec.ofFin (w := 4) (fieldX w) = w.extractLsb' 8 4 := rfl
theorem ofFin_fieldY (w : Word) : BitVec.ofFin (w := 4) (fieldY w) = w.extractLsb' 4 4 := rfl
theorem ofFin_fieldN (w : Word) : BitVec.ofFin (w := 4) (fieldN w) = w.extractLsb' 0 4 := rfl

theorem placeNNN_fields {w v : Word} (h : w &&& 0xF000 = v) : placeNNN v (fieldNNN w) = w := by
  subst h
  refine BitVec.eq_of_getLsbD_eq fun i hi => ?_
  interval_cases i <;> simp [placeNNN, fieldNNN]

theorem placeX_fields {w v : Word} (h : w &&& 0xF0FF = v) : placeX v (fieldX w) = w := by
  subst h
  refine BitVec.eq_of_getLsbD_eq fun i hi => ?_
  interval_cases i <;> simp [placeX, ofFin_fieldX]

theorem placeXNN_fields {w v : Word} (h : w &&& 0xF000 = v) : placeXNN v (fieldX w) (fieldNN w) = w := by
  subst h
  refine BitVec.eq_of_getLsbD_eq fun i hi => ?_
  interval_cases i <;> simp [placeXNN, placeX, ofFin_fieldX, fieldNN]

theorem placeXY_fields {w v : Word} (h : w &&& 0xF00F = v) : placeXY v (fieldX w) (fieldY w) = w := by
  subst h
  refine BitVec.eq_of_getLsbD_eq fun i hi => ?_
  interval_cases i <;> simp [placeXY, placeX, ofFin_fieldX, ofFin_fieldY]

theorem placeXYN_fields {w v : Word} (h : w &&& 0xF000 = v) :
    placeXYN v (fieldX w) (fieldY w) (fieldN w) = w := by
  subst h
  refine BitVec.eq_of_getLsbD_eq fun i hi => ?_
  interval_cases i <;> simp [placeXYN, placeXY, placeX, ofFin_fieldX, ofFin_fieldY, ofFin_fieldN]

/-- The instruction a matching row builds is encoded as the word: a row's mask and its fields cover all 16 bits. -/
theorem encode_build_of_hits {r : OpcodeRow} (hr : r ∈ opcodeRows) {w : Word} (h : r.hits w = true) :
    encode (r.build w) = w := by
  have hexact : w &&& 65535#16 = w := BitVec.and_allOnes
  revert r
  simp +contextual [opcodeRows, exactRows, sysRow, disjointRows, classRows, aluRows, miscRows, OpcodeRow.hits,
    encode, placeNNN_fields, placeX_fields, placeXNN_fields, placeXY_fields, placeXYN_fields, hexact]

theorem encode_decode (w : Word) : encode (decode w) = w := by
  obtain ⟨r, hr, hhits, hdecode⟩ | ⟨-, hdecode⟩ := decode_cases w
  · rw [hdecode, encode_build_of_hits hr hhits]
  · rw [hdecode, encode]

/-- Only SYS and Unknown have operands no word stands for; a word that decoded to such a term would be its encoding,
which decodes to another. -/
theorem wf_decode (w : Word) : (decode w).wf = true := by
  have hround := encode_decode w
  cases hi : decode w with
  | sys nnn =>
    have hcls : nnn ≠ 0x0E0 := by
      rintro rfl
      rw [hi, show encode (.sys 0x0E0) = 0x00E0 from rfl] at hround
      exact absurd hi (by rw [← hround]; decide)
    have hret : nnn ≠ 0x0EE := by
      rintro rfl
      rw [hi, show encode (.sys 0x0EE) = 0x00EE from rfl] at hround
      exact absurd hi (by rw [← hround]; decide)
    exact Bool.and_eq_true_iff.mpr ⟨bne_iff_ne.mpr hcls, bne_iff_ne.mpr hret⟩
  | unknown u =>
    obtain rfl : u = w := by rw [← hround, hi, encode]
    exact (decode_eq_unknown_iff_unassigned u).mp hi
  | _ => rfl

/-- Settles O2: the decoder answers for every word by its type; what it answers is well-formed and encodes to the
word. -/
theorem encodeOfDecodeIsTheWord : Obligations.EncodeOfDecodeIsTheWord := by
  unfold Obligations.EncodeOfDecodeIsTheWord
  exact fun w => ⟨wf_decode w, encode_decode w⟩

/-! ## Reading the fields of a placed word (R72, R80)

One lemma per layout: an instruction built from the fields of its placed word has its own operands. -/

theorem build_placeNNN (f : Addr12 → Instr) {v : Word} (hv : v &&& 0xF000 = v) (nnn : Addr12) :
    f (fieldNNN (placeNNN v nnn)) = f nnn := by
  refine congrArg f (BitVec.eq_of_getLsbD_eq fun i hi => ?_)
  rw [← hv]
  interval_cases i <;> simp [fieldNNN, placeNNN]

/-- A four-bit field is read off its four bits. -/
theorem nibble_eq {w : Word} {k : Nat} {x : Fin 16} (h : ∀ i < 4, w.getLsbD (k + i) = x.val.testBit i) :
    (w.extractLsb' k 4).toFin = x := by
  refine congrArg BitVec.toFin (a₂ := BitVec.ofFin (w := 4) x) (BitVec.eq_of_getLsbD_eq fun i hi => ?_)
  rw [BitVec.getLsbD_extractLsb', h i hi, decide_eq_true hi, Bool.true_and]
  rfl

theorem build_placeX (f : Reg → Instr) {v : Word} (hv : v &&& 0xF0FF = v) (x : Reg) :
    f (fieldX (placeX v x)) = f x := by
  refine congrArg f (nibble_eq fun i hi => ?_)
  rw [← hv]
  interval_cases i <;> simp [placeX]

theorem build_placeXNN (f : Reg → Byte → Instr) {v : Word} (hv : v &&& 0xF000 = v) (x : Reg) (nn : Byte) :
    f (fieldX (placeXNN v x nn)) (fieldNN (placeXNN v x nn)) = f x nn := by
  rw [← hv]
  congr 1
  · refine nibble_eq fun i hi => ?_
    interval_cases i <;> simp [placeXNN, placeX]
  · refine BitVec.eq_of_getLsbD_eq fun i hi => ?_
    interval_cases i <;> simp [fieldNN, placeXNN, placeX]

theorem build_placeXY (f : Reg → Reg → Instr) {v : Word} (hv : v &&& 0xF00F = v) (x y : Reg) :
    f (fieldX (placeXY v x y)) (fieldY (placeXY v x y)) = f x y := by
  rw [← hv]
  congr 1
  all_goals
    refine nibble_eq fun i hi => ?_
    interval_cases i <;> simp [placeXY, placeX]

theorem build_placeXYN (f : Reg → Reg → RowCount → Instr) {v : Word} (hv : v &&& 0xF000 = v) (x y : Reg)
    (n : RowCount) :
    f (fieldX (placeXYN v x y n)) (fieldY (placeXYN v x y n)) (fieldN (placeXYN v x y n)) = f x y n := by
  rw [← hv]
  congr 1
  all_goals
    refine nibble_eq fun i hi => ?_
    interval_cases i <;> simp [placeXYN, placeXY, placeX]

/-! ## Decoding an encoded instruction (R80) -/

/-- A word that fits a row other than 0NNN decodes to the instruction that row builds. -/
theorem decode_encode_of_row {i : Instr} (k : Fin 35) (hk : k ≠ 2)
    (hfit : encode i &&& opcodeRows[k].mask = opcodeRows[k].value) (hbuild : opcodeRows[k].build (encode i) = i) :
    decode (encode i) = i :=
  (decode_eq_build_of_hits k hk (beq_iff_eq.mpr hfit)).trans hbuild

open Laws in
/-- An encoded word fits its row by `EncodingFitsTable` and is built again by its layout; SYS and Unknown are the two cases
that well-formedness restricts. -/
theorem decode_encode {i : Instr} (hwf : i.wf = true) : decode (encode i) = i := by
  cases i with
  | sys nnn =>
    obtain ⟨hcls, hret⟩ : nnn ≠ 0x0E0 ∧ nnn ≠ 0x0EE := by simpa [Instr.wf] using hwf
    have hbuild : Instr.sys (fieldNNN (encode (.sys nnn))) = .sys nnn := build_placeNNN .sys rfl nnn
    have hnnn := Instr.sys.inj hbuild
    rw [decode_eq_sys (EncodingFitsTable.sys nnn hwf), hbuild]
    · exact fun h => hcls (hnnn.symm.trans (congrArg fieldNNN h))
    · exact fun h => hret (hnnn.symm.trans (congrArg fieldNNN h))
  | cls => rfl
  | ret => rfl
  | jmp nnn => exact decode_encode_of_row 3 (by decide) (EncodingFitsTable.jmp _ hwf) (build_placeNNN _ rfl nnn)
  | call nnn => exact decode_encode_of_row 4 (by decide) (EncodingFitsTable.call _ hwf) (build_placeNNN _ rfl nnn)
  | skipEqImm x nn =>
    exact decode_encode_of_row 5 (by decide) (EncodingFitsTable.skipEqImm _ _ hwf) (build_placeXNN _ rfl x nn)
  | skipNeImm x nn =>
    exact decode_encode_of_row 6 (by decide) (EncodingFitsTable.skipNeImm _ _ hwf) (build_placeXNN _ rfl x nn)
  | skipEqReg x y =>
    exact decode_encode_of_row 7 (by decide) (EncodingFitsTable.skipEqReg _ _ hwf) (build_placeXY _ rfl x y)
  | ldImm x nn =>
    exact decode_encode_of_row 8 (by decide) (EncodingFitsTable.ldImm _ _ hwf) (build_placeXNN _ rfl x nn)
  | addImm x nn =>
    exact decode_encode_of_row 9 (by decide) (EncodingFitsTable.addImm _ _ hwf) (build_placeXNN _ rfl x nn)
  | skipNeReg x y =>
    exact decode_encode_of_row 10 (by decide) (EncodingFitsTable.skipNeReg _ _ hwf) (build_placeXY _ rfl x y)
  | ldI nnn => exact decode_encode_of_row 11 (by decide) (EncodingFitsTable.ldI _ hwf) (build_placeNNN _ rfl nnn)
  | jmpV0 nnn =>
    exact decode_encode_of_row 12 (by decide) (EncodingFitsTable.jmpV0 _ hwf) (build_placeNNN _ rfl nnn)
  | rnd x nn =>
    exact decode_encode_of_row 13 (by decide) (EncodingFitsTable.rnd _ _ hwf) (build_placeXNN _ rfl x nn)
  | drw x y n =>
    exact decode_encode_of_row 14 (by decide) (EncodingFitsTable.drw _ _ _ hwf) (build_placeXYN _ rfl x y n)
  | ldReg x y =>
    exact decode_encode_of_row 15 (by decide) (EncodingFitsTable.ldReg _ _ hwf) (build_placeXY _ rfl x y)
  | or x y => exact decode_encode_of_row 16 (by decide) (EncodingFitsTable.or _ _ hwf) (build_placeXY _ rfl x y)
  | and x y => exact decode_encode_of_row 17 (by decide) (EncodingFitsTable.and _ _ hwf) (build_placeXY _ rfl x y)
  | xor x y => exact decode_encode_of_row 18 (by decide) (EncodingFitsTable.xor _ _ hwf) (build_placeXY _ rfl x y)
  | addReg x y =>
    exact decode_encode_of_row 19 (by decide) (EncodingFitsTable.addReg _ _ hwf) (build_placeXY _ rfl x y)
  | subReg x y =>
    exact decode_encode_of_row 20 (by decide) (EncodingFitsTable.subReg _ _ hwf) (build_placeXY _ rfl x y)
  | shr x y => exact decode_encode_of_row 21 (by decide) (EncodingFitsTable.shr _ _ hwf) (build_placeXY _ rfl x y)
  | subN x y => exact decode_encode_of_row 22 (by decide) (EncodingFitsTable.subN _ _ hwf) (build_placeXY _ rfl x y)
  | shl x y => exact decode_encode_of_row 23 (by decide) (EncodingFitsTable.shl _ _ hwf) (build_placeXY _ rfl x y)
  | skipKey x => exact decode_encode_of_row 24 (by decide) (EncodingFitsTable.skipKey _ hwf) (build_placeX _ rfl x)
  | skipNotKey x =>
    exact decode_encode_of_row 25 (by decide) (EncodingFitsTable.skipNotKey _ hwf) (build_placeX _ rfl x)
  | ldVxDt x => exact decode_encode_of_row 26 (by decide) (EncodingFitsTable.ldVxDt _ hwf) (build_placeX _ rfl x)
  | ldKey x => exact decode_encode_of_row 27 (by decide) (EncodingFitsTable.ldKey _ hwf) (build_placeX _ rfl x)
  | ldDtVx x => exact decode_encode_of_row 28 (by decide) (EncodingFitsTable.ldDtVx _ hwf) (build_placeX _ rfl x)
  | ldStVx x => exact decode_encode_of_row 29 (by decide) (EncodingFitsTable.ldStVx _ hwf) (build_placeX _ rfl x)
  | addI x => exact decode_encode_of_row 30 (by decide) (EncodingFitsTable.addI _ hwf) (build_placeX _ rfl x)
  | ldFont x => exact decode_encode_of_row 31 (by decide) (EncodingFitsTable.ldFont _ hwf) (build_placeX _ rfl x)
  | bcd x => exact decode_encode_of_row 32 (by decide) (EncodingFitsTable.bcd _ hwf) (build_placeX _ rfl x)
  | storeRegs x =>
    exact decode_encode_of_row 33 (by decide) (EncodingFitsTable.storeRegs _ hwf) (build_placeX _ rfl x)
  | loadRegs x => exact decode_encode_of_row 34 (by decide) (EncodingFitsTable.loadRegs _ hwf) (build_placeX _ rfl x)
  | unknown w => exact (decode_eq_unknown_iff_unassigned w).mpr hwf

/-- Settles O1: the word of a well-formed instruction fits its row of the table, and that row builds the instruction
again; the two SYS operands that are no well-formed instruction are the exact forms' words. -/
theorem decodeOfEncodeIsTheInstruction : Obligations.DecodeOfEncodeIsTheInstruction := by
  unfold Obligations.DecodeOfEncodeIsTheInstruction
  exact ⟨fun _ hwf => decode_encode hwf, by decide, by decide⟩

/-! ## Words given as numbers -/

/-- A value that a mask keeps whole and a field that the mask clears share no bit, and so their `or` is their sum. -/
theorem toNat_or_of_mask {v f : Word} (m : Word) (hv : v &&& m = v) (hf : f &&& m = 0) :
    (v ||| f).toNat = v.toNat + f.toNat := by
  have h : v &&& f = 0#16 := by
    rw [← hv, BitVec.and_assoc, BitVec.and_comm m, hf]
    exact BitVec.and_zero
  rw [← BitVec.add_eq_or_of_and_eq_zero _ _ h, BitVec.toNat_add_of_and_eq_zero h]

theorem toNat_placeNNN {v : Word} (hv : v &&& 0xF000 = v) (nnn : Addr12) :
    (placeNNN v nnn).toNat = v.toNat + nnn.toNat := by
  have hf : nnn.setWidth 16 &&& (0xF000 : Word) = 0 := by
    refine BitVec.eq_of_getLsbD_eq fun i hi => ?_
    interval_cases i <;> simp
  rw [placeNNN, toNat_or_of_mask _ hv hf, BitVec.toNat_setWidth]
  omega

theorem toNat_placeX {v : Word} (hv : v &&& 0xF0FF = v) (x : Reg) :
    (placeX v x).toNat = v.toNat + 0x100 * x.val := by
  have hf : (BitVec.ofFin (w := 4) x).setWidth 16 <<< 8 &&& (0xF0FF : Word) = 0 := by
    refine BitVec.eq_of_getLsbD_eq fun i hi => ?_
    interval_cases i <;> simp
  rw [placeX, toNat_or_of_mask _ hv hf]
  simp [Nat.shiftLeft_eq]
  omega

theorem toNat_placeXNN {v : Word} (hv : v &&& 0xF000 = v) (x : Reg) (nn : Byte) :
    (placeXNN v x nn).toNat = v.toNat + 0x100 * x.val + nn.toNat := by
  have hkeep : placeX v x &&& 0xFF00 = placeX v x := by
    rw [← hv]
    refine BitVec.eq_of_getLsbD_eq fun i hi => ?_
    interval_cases i <;> simp [placeX]
  have hf : nn.setWidth 16 &&& (0xFF00 : Word) = 0 := by
    refine BitVec.eq_of_getLsbD_eq fun i hi => ?_
    interval_cases i <;> simp
  have hx : v &&& 0xF0FF = v := by
    rw [← hv, BitVec.and_assoc]
    rfl
  rw [placeXNN, toNat_or_of_mask _ hkeep hf, toNat_placeX hx, BitVec.toNat_setWidth]
  omega

/-- A word written as a number decodes to the instruction whose word has that number. -/
theorem decode_ofNat {i : Instr} (hwf : i.wf = true) {n : Nat} (h : (encode i).toNat = n) :
    decode (BitVec.ofNat 16 n) = i := by
  rw [← h, BitVec.ofNat_toNat, BitVec.setWidth_eq, decode_encode hwf]

/-- Settles O5: each vector is one run of the decoder. -/
theorem decodeVectors : Obligations.DecodeVectors := by
  unfold Obligations.DecodeVectors
  decide

end Sys2Proof
end

section
/-! SUPPORT. Every instruction in one form (40_control.md R100, R101): a range-checked access, an effect on the state, and
the next pc. `exec_eq` ties the three definitions to the model; the rules about all instructions go through it. -/

namespace Sys2Proof

open Machine

/-! ## The form -/

/-- The bytes an instruction ranges over and the fault it takes when one is out of range (60_exceptions.md R201). -/
structure Access where
  cause : FaultCause
  addr : Nat
  count : Nat

/-- Whether the bytes of an access are all in range (20_memory.md R44). -/
def Access.ok (a : Access) : Prop := accessOk a.addr a.count

/-- The access of an instruction, of no bytes where it makes none. -/
def Instr.access (i : Instr) (s : State) : Access :=
  match i with
  | .ret => ⟨.stack, (spUp s.sp).toNat, 2⟩
  | .call _ => ⟨.stack, s.sp.toNat, 2⟩
  | .drw _ _ n => ⟨.data, s.I.toNat, n.val⟩
  | .bcd _ => ⟨.data, s.I.toNat, 3⟩
  | .storeRegs x | .loadRegs x => ⟨.data, s.I.toNat, x.val + 1⟩
  | .sys _ | .cls | .jmp _ | .skipEqImm _ _ | .skipNeImm _ _ | .skipEqReg _ _ | .ldImm _ _ | .addImm _ _
  | .ldReg _ _ | .or _ _ | .and _ _ | .xor _ _ | .addReg _ _ | .subReg _ _ | .shr _ _ | .subN _ _ | .shl _ _
  | .skipNeReg _ _ | .ldI _ | .jmpV0 _ | .rnd _ _ | .skipKey _ | .skipNotKey _ | .ldVxDt _ | .ldKey _
  | .ldDtVx _ | .ldStVx _ | .addI _ | .ldFont _ | .unknown _ => ⟨.data, 0, 0⟩

/-- What an instruction does to the state elements other than pc, its access in range. -/
def Instr.effect (i : Instr) (s : State) : State :=
  match i with
  | .cls => s.setFb Framebuffer.clear
  | .ret => popFrame s
  | .jmp nnn => { s with HALT := s.HALT || decide (nnn.toNat = s.pc.toNat) }
  | .call _ => pushFrame s.pc s
  | .ldImm x nn => s.setV x nn
  | .addImm x nn => s.setV x (s.getV x + nn)
  | .ldReg x y => s.setV x (s.getV y)
  | .or x y => s.setV x (s.getV x ||| s.getV y)
  | .and x y => s.setV x (s.getV x &&& s.getV y)
  | .xor x y => s.setV x (s.getV x ^^^ s.getV y)
  | .addReg x y => (s.setV x (s.getV x + s.getV y)).setFlag (carryOut (s.getV x) (s.getV y))
  | .subReg x y => (s.setV x (s.getV x - s.getV y)).setFlag (strictlyGreater (s.getV x) (s.getV y))
  | .shr x y => (s.setV x (s.getV y >>> 1)).setFlag (lowBitOut (s.getV y))
  | .subN x y => (s.setV x (s.getV y - s.getV x)).setFlag (strictlyGreater (s.getV y) (s.getV x))
  | .shl x y => (s.setV x (s.getV y <<< 1)).setFlag (highBitOut (s.getV y))
  | .ldI nnn => s.setI nnn.toNat
  | .drw x y n => (s.setFb (drawnCanvas x y n s).fb).setFlag (drawnCanvas x y n s).collided
  | .ldVxDt x => s.setV x s.DT
  | .ldDtVx x => s.setDT (s.getV x)
  | .ldStVx x => s.setST (s.getV x)
  | .addI x => s.setI (s.I.toNat + (s.getV x).toNat)
  | .ldFont x => s.setI (fontAddr (s.getV x))
  | .bcd x => s.storeAtI (bcdBytes (s.getV x))
  | .storeRegs x => s.storeAtI (blockBytes x s)
  | .loadRegs x => loadBlock x s
  | .sys _ | .skipEqImm _ _ | .skipNeImm _ _ | .skipEqReg _ _ | .skipNeReg _ _ | .jmpV0 _ | .rnd _ _
  | .skipKey _ | .skipNotKey _ | .ldKey _ | .unknown _ => s

/-- Where an instruction goes, its access in range (a jump to its own address stays there). -/
def Instr.nextPc (i : Instr) (s : State) : Word :=
  match i with
  | .ret => BitVec.ofNat 16 ((poppedWord s).toNat + 2)
  | .jmp nnn | .call nnn => BitVec.ofNat 16 nnn.toNat
  | .jmpV0 nnn => BitVec.ofNat 16 (nnn.toNat + (s.getV V0).toNat)
  | .skipEqImm x nn => BitVec.ofNat 16 (s.pc.toNat + if s.getV x == nn then 4 else 2)
  | .skipNeImm x nn => BitVec.ofNat 16 (s.pc.toNat + if s.getV x != nn then 4 else 2)
  | .skipEqReg x y => BitVec.ofNat 16 (s.pc.toNat + if s.getV x == s.getV y then 4 else 2)
  | .skipNeReg x y => BitVec.ofNat 16 (s.pc.toNat + if s.getV x != s.getV y then 4 else 2)
  | .sys _ | .cls | .ldImm _ _ | .addImm _ _ | .ldReg _ _ | .or _ _ | .and _ _ | .xor _ _ | .addReg _ _
  | .subReg _ _ | .shr _ _ | .subN _ _ | .shl _ _ | .ldI _ | .rnd _ _ | .drw _ _ _ | .skipKey _
  | .skipNotKey _ | .ldVxDt _ | .ldKey _ | .ldDtVx _ | .ldStVx _ | .addI _ | .ldFont _ | .bcd _
  | .storeRegs _ | .loadRegs _ | .unknown _ => s.pc + 2

/-- The state an instruction leaves when its access is in range. -/
def Instr.result (i : Instr) (s : State) : State := (i.effect s).withPc (i.nextPc s)

namespace Machine

/-! ## The form is the model's -/

/-- JP's two cases are one: a jump to its own address sets HALT, and its target is the pc it keeps. -/
theorem execJmp_eq (nnn : Addr12) (s : State) : execJmp nnn s = .next ((Instr.jmp nnn).result s) := by
  by_cases h : nnn.toNat = s.pc.toNat
  · have hexec : execJmp nnn s = commitHalt s := if_pos h
    have hpc : BitVec.ofNat 16 nnn.toNat = s.pc := by rw [h, BitVec.ofNat_toNat, BitVec.setWidth_eq]
    simp only [hexec, Instr.result, Instr.effect, Instr.nextPc, decide_eq_true h, Bool.or_true, hpc]
    rfl
  · have hexec : execJmp nnn s = commitNext nnn.toNat s := if_neg h
    simp only [hexec, Instr.result, Instr.effect, Instr.nextPc, decide_eq_false h, Bool.or_false]
    rfl

/-- Every instruction is a range check over its effect and its next pc. -/
theorem exec_eq (i : Instr) (s : State) :
    exec i s = guarded (i.access s).cause (i.access s).addr (i.access s).count s (.next (i.result s)) := by
  cases i with
  | jmp nnn => exact execJmp_eq nnn s
  | ret | call _ | jmpV0 _ => rfl
  | skipEqImm _ _ | skipNeImm _ _ | skipEqReg _ _ | skipNeReg _ _ => exact skipIf_eq _ s
  | drw _ _ _ | bcd _ | storeRegs _ | loadRegs _ => exact congrArg (guarded _ _ _ s) (advance_eq _)
  | _ => exact advance_eq _

/-- Everything an instruction can answer: its result, or the fault of its access. -/
theorem exec_cases (i : Instr) (s : State) :
    ((i.access s).ok ∧ exec i s = .next (i.result s)) ∨
      (¬ (i.access s).ok ∧
        exec i s = .next (takeMemFault (i.access s).cause (firstBadByte (i.access s).addr) s)) := by
  rw [exec_eq]
  exact guarded_cases _ _ _ s _

theorem exec_of_ok {i : Instr} {s : State} (h : (i.access s).ok) : exec i s = .next (i.result s) := by
  rw [exec_eq, guarded_of_ok _ _ _ h]

theorem exec_of_bad {i : Instr} {s : State} (h : ¬ (i.access s).ok) :
    exec i s = .next (takeMemFault (i.access s).cause (firstBadByte (i.access s).addr) s) := by
  rw [exec_eq, guarded_of_bad _ _ _ h]

/-- Settles O9: a stopped step and a fetch fault answer a next state, and so does every instruction. -/
theorem everyStepAnswersNext : Obligations.EveryStepAnswersNext := by
  unfold Obligations.EveryStepAnswersNext
  intro s
  obtain ⟨-, h⟩ | ⟨-, -, h⟩ | ⟨-, -, h⟩ := step_cases s
  · exact ⟨_, h⟩
  · exact ⟨_, h⟩
  · obtain ⟨-, h'⟩ | ⟨-, h'⟩ := exec_cases (decode (s.mem.readWord s.pc.toNat)) s <;> exact ⟨_, h.trans h'⟩

end Machine

end Sys2Proof
end

section
/-! SUPPORT. The rules about all instructions: what an effect leaves of each state element, then the invariant
(20_memory.md R53), the writers (10_state.md §4) and the faults (60_exceptions.md R201). -/

namespace Sys2Proof.Machine

/-! ## What an effect leaves of each state element -/

@[simp] theorem effect_FAULT (i : Instr) (s : State) : (i.effect s).FAULT = s.FAULT := by
  cases i with
  | loadRegs x => exact loadBlock_FAULT s x
  | _ => rfl

theorem effect_HALT (i : Instr) (s : State) :
    (i.effect s).HALT = true ↔ s.HALT = true ∨ ∃ nnn, i = .jmp nnn ∧ nnn.toNat = s.pc.toNat := by
  cases i with
  | _ => simp [Instr.effect]

theorem writers_I {i : Instr} {s : State} (h : (i.effect s).I ≠ s.I) :
    ∃ nnn x, i = .ldI nnn ∨ i = .addI x ∨ i = .ldFont x := by
  cases i with
  | ldI nnn => exact ⟨nnn, 0, .inl rfl⟩
  | addI x => exact ⟨0, x, .inr (.inl rfl)⟩
  | ldFont x => exact ⟨0, x, .inr (.inr rfl)⟩
  | _ => simp [Instr.effect] at h

theorem writers_sp {i : Instr} {s : State} (h : (i.effect s).sp ≠ s.sp) :
    ∃ nnn, i = .call nnn ∨ i = .ret := by
  cases i with
  | call nnn => exact ⟨nnn, .inl rfl⟩
  | ret => exact ⟨0, .inr rfl⟩
  | _ => simp [Instr.effect] at h

theorem writers_DT {i : Instr} {s : State} (h : (i.effect s).DT ≠ s.DT) : ∃ x, i = .ldDtVx x := by
  cases i with
  | ldDtVx x => exact ⟨x, rfl⟩
  | _ => simp [Instr.effect] at h

theorem writers_ST {i : Instr} {s : State} (h : (i.effect s).ST ≠ s.ST) : ∃ x, i = .ldStVx x := by
  cases i with
  | ldStVx x => exact ⟨x, rfl⟩
  | _ => simp [Instr.effect] at h

theorem writers_fb {i : Instr} {s : State} (h : (i.effect s).fb ≠ s.fb) : i = .cls ∨ ∃ a b n, i = .drw a b n := by
  cases i with
  | cls => exact .inl rfl
  | drw a b n => exact .inr ⟨a, b, n, rfl⟩
  | _ => simp [Instr.effect] at h

theorem writers_mem {i : Instr} {s : State} (h : (i.effect s).mem ≠ s.mem) :
    ∃ nnn x, i = .call nnn ∨ i = .bcd x ∨ i = .storeRegs x := by
  cases i with
  | call nnn => exact ⟨nnn, 0, .inl rfl⟩
  | bcd x => exact ⟨0, x, .inr (.inl rfl)⟩
  | storeRegs x => exact ⟨0, x, .inr (.inr rfl)⟩
  | _ => simp [Instr.effect] at h

theorem effect_getV {i : Instr} {s : State} {r : Reg} (h : i.mayWrite r = false) : (i.effect s).getV r = s.getV r := by
  cases i with
  | jmp nnn => rfl
  | loadRegs x =>
    have hr : ¬ r ≤ x := by simpa [Instr.mayWrite] using h
    simp [Instr.effect, hr]
  | _ => simp_all [Instr.effect, Instr.mayWrite]

theorem effect_mem_wf (i : Instr) {s : State} (h : s.mem.wf = true) : (i.effect s).mem.wf = true := by
  by_cases hmem : (i.effect s).mem = s.mem
  · rwa [hmem]
  · obtain ⟨nnn, x, rfl | rfl | rfl⟩ := writers_mem hmem
    · exact Memory.wf_writeWord h _ _
    · exact Memory.wf_writeBytes h _ _
    · exact Memory.wf_writeBytes h _ _

/-! ## The invariant -/

/-- A Push keeps sp even and at most 0xFFE because it saturates at 0, a Pop because its frame is in range. -/
theorem effect_sp_even_le {i : Instr} {s : State} (hok : (i.access s).ok)
    (h : s.sp.toNat % 2 = 0 ∧ s.sp.toNat ≤ 0xFFE) :
    (i.effect s).sp.toNat % 2 = 0 ∧ (i.effect s).sp.toNat ≤ 0xFFE := by
  by_cases hsp : (i.effect s).sp = s.sp
  · rwa [hsp]
  · obtain ⟨nnn, rfl | rfl⟩ := writers_sp hsp
    · rw [Instr.effect, pushFrame_sp, toNat_spDown]
      split <;> omega
    · have hframe : accessOk (spUp s.sp).toNat 2 := hok
      rw [Instr.effect, popFrame_sp, toNat_spUp]
      rw [toNat_spUp, accessOk] at hframe
      omega

theorem takeMemFault_Inv (c : FaultCause) (a : Nat) (s : State) : (takeMemFault c a s).Inv :=
  ⟨Memory.wf_ofBytes _, fun h => absurd h (by simp)⟩

theorem exec_keeps_Inv {i : Instr} {s t : State} (h : s.Inv) (hexec : exec i s = .next t) : t.Inv := by
  obtain ⟨hmem, hsp⟩ := h
  obtain ⟨hok, heq⟩ | ⟨-, heq⟩ := exec_cases i s
  · obtain rfl : i.result s = t := Host.Outcome.next.inj (heq.symm.trans hexec)
    refine ⟨effect_mem_wf i hmem, fun hvalid => effect_sp_even_le hok (hsp ?_)⟩
    simpa [Instr.result] using hvalid
  · obtain rfl : _ = t := Host.Outcome.next.inj (heq.symm.trans hexec)
    exact takeMemFault_Inv _ _ s

/-- Settles O10: a stopped step keeps the state, a fetch fault's memory is canonical and its state in the fault stop, and
every instruction keeps the invariant. -/
theorem stepKeepsTheInvariant : Obligations.StepKeepsTheInvariant := by
  unfold Obligations.StepKeepsTheInvariant
  intro s t hinv hstep
  obtain ⟨-, h⟩ | ⟨-, -, h⟩ | ⟨-, -, h⟩ := step_cases s
  · obtain rfl : s = t := Host.Outcome.next.inj (h.symm.trans hstep)
    exact hinv
  · obtain rfl : _ = t := Host.Outcome.next.inj (h.symm.trans hstep)
    exact takeMemFault_Inv _ _ s
  · exact exec_keeps_Inv hinv (h.symm.trans hstep)

/-! ## The writers -/

/-- Outside the fault stop an instruction has left its result. -/
theorem eq_result_of_no_fault {i : Instr} {s t : State} (hexec : exec i s = .next t) (hvalid : t.FAULT.valid = false) :
    t = i.result s := by
  obtain ⟨-, heq⟩ | ⟨-, heq⟩ := exec_cases i s
  · exact Host.Outcome.next.inj (hexec.symm.trans heq)
  · obtain rfl : _ = t := Host.Outcome.next.inj (heq.symm.trans hexec)
    simp at hvalid

/-- Settles O22: an effect leaves HALT alone but for that of a JP to its own address. -/
theorem onlyTheSelfJumpHalts : Obligations.OnlyTheSelfJumpHalts := by
  unfold Obligations.OnlyTheSelfJumpHalts
  intro i s t hhalt hexec hvalid
  obtain rfl := eq_result_of_no_fault hexec hvalid
  rw [Instr.result, State.withPc_HALT, effect_HALT]
  simp [hhalt]

/-- Settles O23: the writers of the four registers, element by element. -/
theorem specialRegisterWriters : Obligations.SpecialRegisterWriters := by
  unfold Obligations.SpecialRegisterWriters
  intro i s t hexec hvalid
  obtain rfl := eq_result_of_no_fault hexec hvalid
  exact ⟨writers_I, writers_sp, writers_DT, writers_ST⟩

/-- Settles O24: a cell or a byte that changed is one of a framebuffer or a memory that changed. -/
theorem framebufferAndMemoryWriters : Obligations.FramebufferAndMemoryWriters := by
  unfold Obligations.FramebufferAndMemoryWriters
  intro i s t hexec hvalid
  obtain rfl := eq_result_of_no_fault hexec hvalid
  refine ⟨fun y x hcell => writers_fb (s := s) fun h => hcell ?_,
    fun a hbyte => writers_mem (s := s) fun h => hbyte ?_⟩
  · exact congrArg (fun fb => Framebuffer.cell fb y x) h
  · exact congrArg (fun m => Memory.read m a) h

/-- Settles O25: the effect of an instruction keeps every register the access table does not name. -/
theorem registerWriters : Obligations.RegisterWriters := by
  unfold Obligations.RegisterWriters
  intro i s t hexec hvalid r hr
  obtain rfl := eq_result_of_no_fault hexec hvalid
  exact effect_getV hr

theorem toNat_flagByte (c : Bool) : (flagByte c).toNat = if c then 1 else 0 := by
  cases c <;> rfl

theorem flagByte_le_one (c : Bool) : (flagByte c).toNat ≤ 1 := by
  cases c <;> simp [toNat_flagByte]

/-- Settles O26: each of the six writes `bool(c)` to VF last. -/
theorem flagWritersLeaveZeroOrOne : Obligations.FlagWritersLeaveZeroOrOne := by
  unfold Obligations.FlagWritersLeaveZeroOrOne
  intro s t x y n hexec hvalid
  obtain h | h | h | h | h | h := hexec <;>
  · obtain rfl := eq_result_of_no_fault h hvalid
    simp only [Instr.result, Instr.effect, State.getV_withPc, State.getV_setFlag, if_true]
    exact flagByte_le_one _

/-! ## The faults -/

/-- Only the stack and the I-relative accesses can be out of range, each with its own cause. -/
theorem access_cases {i : Instr} {s : State} (h : ¬ (i.access s).ok) :
    ((i.access s).cause = .stack ∧ ∃ nnn, i = .call nnn ∨ i = .ret) ∨
      ((i.access s).cause = .data ∧
        ∃ x y n, i = .drw x y n ∨ i = .bcd x ∨ i = .storeRegs x ∨ i = .loadRegs x) := by
  cases i with
  | call nnn => exact .inl ⟨rfl, nnn, .inl rfl⟩
  | ret => exact .inl ⟨rfl, 0, .inr rfl⟩
  | drw x y n => exact .inr ⟨rfl, x, y, n, .inl rfl⟩
  | bcd x => exact .inr ⟨rfl, x, 0, 0, .inr (.inl rfl)⟩
  | storeRegs x => exact .inr ⟨rfl, x, 0, 0, .inr (.inr (.inl rfl))⟩
  | loadRegs x => exact .inr ⟨rfl, x, 0, 0, .inr (.inr (.inr rfl))⟩
  | _ => exact absurd (.inl rfl) h

/-- Settles O27: an instruction that has faulted took the fault of its access, for its effect leaves FAULT. -/
theorem faultCausesByInstruction : Obligations.FaultCausesByInstruction := by
  unfold Obligations.FaultCausesByInstruction
  intro i s t hvalid hexec hfault
  obtain ⟨-, heq⟩ | ⟨hbad, heq⟩ := exec_cases i s
  · obtain rfl : i.result s = t := Host.Outcome.next.inj (heq.symm.trans hexec)
    simp [Instr.result, hvalid] at hfault
  · obtain rfl : _ = t := Host.Outcome.next.inj (heq.symm.trans hexec)
    refine ⟨rfl, (access_cases hbad).imp (And.imp_left fun h => ?_) (And.imp_left fun h => ?_)⟩ <;>
    · rw [takeMemFault_FAULT, h]
      rfl

end Sys2Proof.Machine
end

section
/-! SUPPORT. What the setters change (the frames of `State.changesOnly`), and the instructions made of one setter and an
advance: loads, the ALU, I and the timers (41_alu.md, 42_index_memory.md R140 to R142, 44_timers_stubs.md §1). -/

namespace Sys2Proof.Machine

/-! ## Frames -/

/-- A frame allows pc as well once pc is set. -/
theorem State.changesOnly.withPc {s t : State} {W : Element → Prop} (h : s.changesOnly t W) (p : Word) :
    s.changesOnly (t.withPc p) (fun e => e = .pc ∨ W e) := by
  intro e he
  obtain ⟨hpc, hW⟩ := not_or.mp he
  have hagree := h e hW
  cases e with
  | pc => exact absurd rfl hpc
  | _ => exact hagree

theorem State.changesOnly_withPc (s : State) (p : Word) : s.changesOnly (s.withPc p) (fun e => e = .pc) := by
  intro e he
  cases e with
  | pc => exact absurd rfl he
  | _ => rfl

theorem State.changesOnly_setI (s : State) (a : Nat) : s.changesOnly (s.setI a) (fun e => e = .index) := by
  intro e he
  cases e with
  | index => exact absurd rfl he
  | _ => rfl

theorem State.changesOnly_setDT (s : State) (b : Byte) : s.changesOnly (s.setDT b) (fun e => e = .dt) := by
  intro e he
  cases e with
  | dt => exact absurd rfl he
  | _ => rfl

theorem State.changesOnly_setST (s : State) (b : Byte) : s.changesOnly (s.setST b) (fun e => e = .st) := by
  intro e he
  cases e with
  | st => exact absurd rfl he
  | _ => rfl

theorem State.changesOnly_setV_setFlag (s : State) (x : Reg) (b : Byte) (c : Bool) :
    s.changesOnly ((s.setV x b).setFlag c) (fun e => e = .v x ∨ e = .v VF) := by
  intro e he
  cases e with
  | v r =>
    obtain ⟨hx, hVF⟩ : r ≠ x ∧ r ≠ VF := by simpa using he
    simp [State.agreeAt, hx, hVF]
  | _ => rfl

/-! ## One register and an advance -/

/-- An instruction that writes V[x] and moves on (41_alu.md R120 to R125). -/
theorem advance_setV_spec (s : State) (x : Reg) (b : Byte) :
    ∃ t, advance (s.setV x b) = .next t ∧ t.getV x = b ∧ t.pc = s.pc + 2 ∧
      s.changesOnly t (fun e => e = .pc ∨ e = .v x) :=
  ⟨_, advance_eq _, by simp, rfl, s.changesOnly_withPc_setV x b _⟩

/-- Settles O39: both copies write their source to V[x]. -/
theorem registerCopies : Obligations.RegisterCopies := by
  unfold Obligations.RegisterCopies
  exact fun s x y => ⟨advance_setV_spec s x (s.getV y), advance_setV_spec s x s.DT⟩

/-- Settles O40: the byte sum is the sum modulo 256. -/
theorem addImmediateWrapsWithoutFlag : Obligations.AddImmediateWrapsWithoutFlag := by
  unfold Obligations.AddImmediateWrapsWithoutFlag
  intro s x nn
  obtain ⟨t, hexec, hx, hpc, hframe⟩ := advance_setV_spec s x (s.getV x + nn)
  exact ⟨t, hexec, by rw [hx, BitVec.toNat_add], hpc, hframe⟩

/-- Settles O41: the three bit-vector operations act bit by bit. -/
theorem bitwiseCombinesBitByBit : Obligations.BitwiseCombinesBitByBit := by
  unfold Obligations.BitwiseCombinesBitByBit
  intro s x y
  refine ⟨?_, ?_, ?_⟩
  · obtain ⟨t, hexec, hx, hrest⟩ := advance_setV_spec s x (s.getV x ||| s.getV y)
    exact ⟨t, hexec, fun k => by rw [hx, BitVec.getLsbD_or], hrest⟩
  · obtain ⟨t, hexec, hx, hrest⟩ := advance_setV_spec s x (s.getV x &&& s.getV y)
    exact ⟨t, hexec, fun k => by rw [hx, BitVec.getLsbD_and], hrest⟩
  · obtain ⟨t, hexec, hx, hrest⟩ := advance_setV_spec s x (s.getV x ^^^ s.getV y)
    exact ⟨t, hexec, fun k => by rw [hx, BitVec.getLsbD_xor, Bool.bne_eq_xor], hrest⟩

/-! ## A result, a flag and an advance (10_state.md R12) -/

/-- The shared ending of the flag writers: the result where x is not F, and the flag in VF whatever x is. -/
theorem writeResultAndFlag_spec (s : State) (x : Reg) (b : Byte) (c : Bool) :
    ∃ t, writeResultAndFlag x b c s = .next t ∧ (x ≠ VF → t.getV x = b) ∧ t.getV VF = flagByte c ∧
      t.pc = s.pc + 2 ∧ s.changesOnly t (fun e => e = .pc ∨ e = .v x ∨ e = .v VF) := by
  refine ⟨_, advance_eq _, fun hx => ?_, ?_, rfl, (s.changesOnly_setV_setFlag x b c).withPc _⟩
  · simp [hx]
  · simp

/-- Settles O42: the byte sum, and the carry flag's condition as a number. -/
theorem addRegistersCarriesIntoVF : Obligations.AddRegistersCarriesIntoVF := by
  unfold Obligations.AddRegistersCarriesIntoVF
  intro s x y
  obtain ⟨t, hexec, hx, hflag, hrest⟩ :=
    writeResultAndFlag_spec s x (s.getV x + s.getV y) (carryOut (s.getV x) (s.getV y))
  refine ⟨t, hexec, fun h => ?_, ?_, hrest⟩
  · rw [hx h, BitVec.toNat_add]
  · rw [hflag, toNat_flagByte]
    simp [carryOut]

theorem toNat_sub_byte (a b : Byte) : (a - b).toNat = (a.toNat + 256 - b.toNat) % 256 := by
  have := b.isLt
  rw [BitVec.toNat_sub]
  congr 1
  omega

/-- Settles O43: the byte difference, and the strict comparison's condition. -/
theorem subtractionsFlagStrictlyGreater : Obligations.SubtractionsFlagStrictlyGreater := by
  unfold Obligations.SubtractionsFlagStrictlyGreater
  intro s x y
  refine ⟨?_, ?_⟩
  · obtain ⟨t, hexec, hx, hflag, hrest⟩ :=
      writeResultAndFlag_spec s x (s.getV x - s.getV y) (strictlyGreater (s.getV x) (s.getV y))
    refine ⟨t, hexec, fun h => by rw [hx h, toNat_sub_byte], ?_, hrest⟩
    rw [hflag, toNat_flagByte]
    simp [strictlyGreater]
  · obtain ⟨t, hexec, hx, hflag, hrest⟩ :=
      writeResultAndFlag_spec s x (s.getV y - s.getV x) (strictlyGreater (s.getV y) (s.getV x))
    refine ⟨t, hexec, fun h => by rw [hx h, toNat_sub_byte], ?_, hrest⟩
    rw [hflag, toNat_flagByte]
    simp [strictlyGreater]

/-- The flag of SHR is the remainder of the halving. -/
theorem toNat_lowBitOut (b : Byte) : (flagByte (lowBitOut b)).toNat = b.toNat % 2 := by
  rw [toNat_flagByte, lowBitOut, BitVec.getLsbD, Nat.testBit_zero]
  have := Nat.mod_two_eq_zero_or_one b.toNat
  split <;> simp_all

/-- The flag of SHL is the carry of the doubling. -/
theorem toNat_highBitOut (b : Byte) : (flagByte (highBitOut b)).toNat = b.toNat / 128 := by
  have hb := b.isLt
  rw [toNat_flagByte, highBitOut, BitVec.getLsbD, Nat.testBit_eq_decide_div_mod_eq]
  simp only [decide_eq_true_eq]
  split <;> omega

/-- Settles O44: a shift by one halves or doubles V[Y], and the flag is the bit that leaves it. -/
theorem shiftsTakeTheSecondOperand : Obligations.ShiftsTakeTheSecondOperand := by
  unfold Obligations.ShiftsTakeTheSecondOperand
  intro s x y
  refine ⟨?_, ?_⟩
  · obtain ⟨t, hexec, hx, hflag, hrest⟩ :=
      writeResultAndFlag_spec s x (s.getV y >>> 1) (lowBitOut (s.getV y))
    refine ⟨t, hexec, fun h => ?_, by rw [hflag, toNat_lowBitOut], hrest⟩
    rw [hx h, BitVec.toNat_ushiftRight, Nat.shiftRight_eq_div_pow]
  · obtain ⟨t, hexec, hx, hflag, hrest⟩ :=
      writeResultAndFlag_spec s x (s.getV y <<< 1) (highBitOut (s.getV y))
    refine ⟨t, hexec, fun h => ?_, by rw [hflag, toNat_highBitOut], hrest⟩
    rw [hx h, BitVec.toNat_shiftLeft, Nat.shiftLeft_eq, Nat.mul_comm]

/-! ## I and the timers -/

/-- An instruction that sets I and moves on (42_index_memory.md R140 to R142). -/
theorem advance_setI_spec (s : State) (a : Nat) :
    ∃ t, advance (s.setI a) = .next t ∧ t.I.toNat = a % 65536 ∧ t.pc = s.pc + 2 ∧
      s.changesOnly t (fun e => e = .pc ∨ e = .index) :=
  ⟨_, advance_eq _, BitVec.toNat_ofNat a 16, rfl, (s.changesOnly_setI a).withPc _⟩

/-- Settles O45: 12 bits and FONT_BASE + 5 · 255 both fit I's 16 bits, the sum of ADD I wraps. -/
theorem indexRegisterWrites : Obligations.IndexRegisterWrites := by
  unfold Obligations.IndexRegisterWrites
  intro s x nnn
  have hbase := Config.fontBase.isLt
  have hv := (s.getV x).isLt
  have hnnn := nnn.isLt
  refine ⟨?_, advance_setI_spec s (s.I.toNat + (s.getV x).toNat), ?_⟩
  · obtain ⟨t, hexec, hI, hrest⟩ := advance_setI_spec s nnn.toNat
    exact ⟨t, hexec, by omega, hrest⟩
  · obtain ⟨t, hexec, hI, hrest⟩ := advance_setI_spec s (fontAddr (s.getV x))
    refine ⟨t, hexec, ?_, hrest⟩
    rw [hI, fontAddr, Config.glyphSize]
    omega

/-- Settles O58: each timer load sets its timer and moves on. -/
theorem timersAreSetFromVx : Obligations.TimersAreSetFromVx := by
  unfold Obligations.TimersAreSetFromVx
  intro s x
  exact ⟨⟨_, advance_eq _, rfl, rfl, (s.changesOnly_setDT _).withPc _⟩,
    ⟨_, advance_eq _, rfl, rfl, (s.changesOnly_setST _).withPc _⟩⟩

end Sys2Proof.Machine
end

section
/-! SUPPORT. The step's cases (40_control.md R100; 60_exceptions.md R201) and big-endian words (20_memory.md R42). -/

namespace Sys2Proof.Machine

/-! ## The step -/

/-- The first case of `step_cases`. -/
theorem step_of_stopped {s : State} (h : s.HALT = true ∨ s.FAULT.valid = true) : step s = .next s :=
  if_pos ((stopped_iff s).mpr h)

/-- The second case of `step_cases`, which the other two exclude. -/
theorem step_of_bad_pc {s : State} (hrun : s.running) (hpc : 0xFFE < s.pc.toNat) :
    step s = .next (takeMemFault .fetch (firstBadByte s.pc.toNat) s) := by
  obtain ⟨hhalt, hfault⟩ := hrun
  obtain ⟨hstopped, -⟩ | ⟨-, -, hstep⟩ | ⟨-, hok, -⟩ := step_cases s
  · simp [hhalt, hfault] at hstopped
  · exact hstep
  · omega

/-- Settles O6: a running block runs the word at pc, written as a number. -/
theorem stepRunsTheDecodedInstruction : Obligations.StepRunsTheDecodedInstruction := by
  unfold Obligations.StepRunsTheDecodedInstruction
  intro s hrun hpc
  rw [step_of_running hrun hpc, Memory.readWord_eq_ofNat]

/-- Settles O7: the step tests HALT and FAULT.valid first. -/
theorem stoppedStepChangesNothing : Obligations.StoppedStepChangesNothing := by
  unfold Obligations.StoppedStepChangesNothing
  exact fun s h => step_of_stopped h

/-- Settles O8: a word that cannot be fetched takes the fetch fault. -/
theorem fetchPastMemoryFaults : Obligations.FetchPastMemoryFaults := by
  unfold Obligations.FetchPastMemoryFaults
  exact fun s hrun hpc => ⟨_, step_of_bad_pc hrun hpc, takeMemFault_faultedWith _ _ _⟩

/-! ## The word a loader places (log 11) -/

theorem readyToFetch_running (s : State) : (readyToFetch s).running := by
  refine ⟨rfl, ?_⟩
  simp only [readyToFetch]
  split
  case isTrue => rfl
  case isFalse h => exact Bool.eq_false_iff.mpr h

theorem readyToFetch_pc (s : State) : (readyToFetch s).pc.toNat ≤ 0xFFE := by
  simp only [readyToFetch]
  split
  · assumption
  · decide

/-- A word placed in any state is the one the step then runs. -/
theorem step_placeFetchWord (s : State) (w : Word) :
    step (placeFetchWord s w) = exec (decode w) (placeFetchWord s w) := by
  have hpc := readyToFetch_pc s
  have hword : (placeFetchWord s w).mem.readWord (placeFetchWord s w).pc.toNat = w :=
    Memory.readWord_writeWord _ w (by omega)
  have hstep := step_of_running (s := placeFetchWord s w) (readyToFetch_running s) hpc
  rwa [hword] at hstep

/-- Settles O13: 16 given bits are the whole word, and a placed word is run. -/
theorem placedWordIsRun : Obligations.PlacedWordIsRun := by
  unfold Obligations.PlacedWordIsRun
  intro s w
  have hw : BitVec.ofNat 16 (w.toNat % 2 ^ 16) = w := by
    rw [Nat.mod_eq_of_lt w.isLt, BitVec.ofNat_toNat, BitVec.setWidth_eq]
  rw [State.withFetchWord, hw, step_placeFetchWord]

/-! ## Words in memory (20_memory.md R42) -/

theorem toNat_highByte (w : Word) : (highByte w).toNat = w.toNat / 0x100 := by
  have := w.isLt
  rw [highByte, BitVec.extractLsb'_toNat, Nat.shiftRight_eq_div_pow]
  omega

theorem toNat_lowByte (w : Word) : (lowByte w).toNat = w.toNat % 0x100 := by
  simp [lowByte]

theorem Memory.toNat_readWord (m : Memory) (a : Nat) :
    (m.readWord a).toNat = 0x100 * (m.read a).toNat + (m.read (a + 1)).toNat :=
  toNat_wordOfBytes _ _

/-- A word just written: its high byte at a, its low byte at a + 1, every other byte as before. -/
theorem Memory.read_writeWord (m : Memory) {a : Nat} (w : Word) (b : Nat) (h : a + 2 ≤ 0x1000) :
    (m.writeWord a w).read b = if b = a then highByte w else if b = a + 1 then lowByte w else m.read b := by
  rw [Memory.writeWord, Memory.writeBytes, Memory.writeBytes, Memory.writeBytes,
    Memory.read_write _ _ _ (by omega), Memory.read_write _ _ _ (by omega)]
  by_cases hlow : b = a + 1 <;> simp [hlow]

end Sys2Proof.Machine
end

section
/-! SUPPORT. Control transfer and the stack (40_control.md §2, 20_memory.md §6), and the stubs (44_timers_stubs.md §2). -/

namespace Sys2Proof.Machine

/-! ## Instructions that move pc alone -/

/-- Settles O28: the five arms are an advance, and each stub's word, a number, is its encoding. -/
theorem stubsAndUnknownOnlyAdvance : Obligations.StubsAndUnknownOnlyAdvance := by
  unfold Obligations.StubsAndUnknownOnlyAdvance
  intro s x nn w
  refine ⟨rfl, rfl, rfl, rfl, rfl, ?_, ?_, ?_, ?_, (decode_eq_unknown_iff_unassigned w).mpr⟩
  · exact decode_ofNat (i := .rnd x nn) rfl (toNat_placeXNN rfl x nn)
  · exact decode_ofNat (i := .skipKey x) rfl (toNat_placeX rfl x)
  · exact decode_ofNat (i := .skipNotKey x) rfl (toNat_placeX rfl x)
  · exact decode_ofNat (i := .ldKey x) rfl (toNat_placeX rfl x)

/-- Settles O29: SYS is an advance, and an advance commits pc + 2. -/
theorem sysOnlyAdvances : Obligations.SysOnlyAdvances := by
  unfold Obligations.SysOnlyAdvances
  exact fun _ _ => rfl

theorem skipIf_beq (a b : Byte) (s : State) :
    skipIf (a == b) s = .next { s with pc := BitVec.ofNat 16 (s.pc.toNat + if a = b then 4 else 2) } := by
  by_cases h : a = b <;> simp [skipIf_eq, State.withPc, h]

theorem skipIf_bne (a b : Byte) (s : State) :
    skipIf (a != b) s = .next { s with pc := BitVec.ofNat 16 (s.pc.toNat + if a = b then 2 else 4) } := by
  by_cases h : a = b <;> simp [skipIf_eq, State.withPc, h]

/-- Settles O30: the two SE forms skip on equality, the two SNE forms on its negation. -/
theorem skipsAdvanceByFourOrTwo : Obligations.SkipsAdvanceByFourOrTwo := by
  unfold Obligations.SkipsAdvanceByFourOrTwo
  exact fun s x y nn => ⟨skipIf_beq _ _ s, skipIf_bne _ _ s, skipIf_beq _ _ s, skipIf_bne _ _ s⟩

/-- Settles O31: the two branches of JP, and its word as a number. -/
theorem jumpSetsPcOrHalts : Obligations.JumpSetsPcOrHalts := by
  unfold Obligations.JumpSetsPcOrHalts
  intro s nnn
  refine ⟨decode_ofNat (i := .jmp nnn) rfl (toNat_placeNNN rfl nnn), fun h => ?_, fun h => ?_⟩
  · exact if_pos h
  · exact if_neg h

/-- Settles O32: a 12-bit address plus a byte is at most 0x10FE, so the commit drops nothing. -/
theorem indexedJumpAddsV0 : Obligations.IndexedJumpAddsV0 := by
  unfold Obligations.IndexedJumpAddsV0
  intro s nnn
  have hnnn := nnn.isLt
  have hv := (s.getV V0).isLt
  have hpc : (s.withPc (BitVec.ofNat 16 (indexedTarget nnn s))).pc.toNat = nnn.toNat + (s.getV V0).toNat := by
    rw [State.withPc_pc, BitVec.toNat_ofNat, indexedTarget]
    omega
  exact ⟨_, rfl, hpc, by omega, s.changesOnly_withPc _⟩

/-! ## The stack -/

/-- A Push changes sp and the two bytes of its frame. -/
theorem State.changesOnly_pushFrame (s : State) (v : Word) (h : s.sp.toNat + 2 ≤ 0x1000) :
    s.changesOnly (pushFrame v s)
      (fun e => e = .sp ∨ e = .byte s.sp.toNat ∨ e = .byte (s.sp.toNat + 1)) := by
  intro e he
  cases e with
  | sp => exact absurd (.inl rfl) he
  | byte a =>
    obtain ⟨hhigh, hlow⟩ : a ≠ s.sp.toNat ∧ a ≠ s.sp.toNat + 1 := by simpa using he
    simp [State.agreeAt, Memory.read_writeWord _ _ _ h, hhigh, hlow]
  | _ => rfl

/-- A Pop changes sp. -/
theorem State.changesOnly_popFrame (s : State) : s.changesOnly (popFrame s) (fun e => e = .sp) := by
  intro e he
  cases e with
  | sp => exact absurd rfl he
  | _ => rfl

/-- A CALL whose frame is in range pushes it and jumps (40_control.md R105). -/
theorem exec_call {s : State} (nnn : Addr12) (h : s.sp.toNat + 1 ≤ 0xFFF) :
    exec (.call nnn) s = .next ((pushFrame s.pc s).withPc (BitVec.ofNat 16 nnn.toNat)) :=
  exec_of_ok (i := .call nnn) (.inr (by simp only [Instr.access]; omega))

/-- A RET whose frame is in range pops it and goes past the popped address (40_control.md R103). -/
theorem exec_ret {s : State} (h : (spUp s.sp).toNat + 1 ≤ 0xFFF) :
    exec .ret s = .next ((popFrame s).withPc (poppedWord s + 2)) := by
  rw [exec_of_ok (i := .ret) (.inr (by simp only [Instr.access]; omega)), Instr.result, Instr.nextPc, pc_plus]
  rfl

/-- Settles O33: the frame is pc's two bytes, and nothing but the Push and the jump happens. -/
theorem callPushesItsOwnAddress : Obligations.CallPushesItsOwnAddress := by
  unfold Obligations.CallPushesItsOwnAddress
  intro s nnn hsp
  have hframe : s.sp.toNat + 2 ≤ 0x1000 := by omega
  refine ⟨_, exec_call nnn hsp, ?_, toNat_spDown s.sp, ?_, ?_, (s.changesOnly_pushFrame s.pc hframe).withPc _⟩
  · have := nnn.isLt
    rw [State.withPc_pc, BitVec.toNat_ofNat]
    omega
  · simp [Memory.read_writeWord _ _ _ hframe, toNat_highByte]
  · simp [Memory.read_writeWord _ _ _ hframe, toNat_lowByte]

/-- Settles O34: the popped word's value from its bytes, plus 2 at pc's 16 bits. -/
theorem returnGoesPastThePoppedAddress : Obligations.ReturnGoesPastThePoppedAddress := by
  unfold Obligations.ReturnGoesPastThePoppedAddress
  intro s top htop hframe
  have hsp : (spUp s.sp).toNat = top := by rw [toNat_spUp, htop]
  refine ⟨_, exec_ret (by omega), hsp, ?_, s.changesOnly_popFrame.withPc _⟩
  rw [State.withPc_pc, BitVec.toNat_add, poppedWord, hsp, Memory.toNat_readWord]
  rfl

/-- Settles O35: the Pop moves sp back to the frame that the Push wrote, and reads pc there. -/
theorem callThenReturnResumesAfterTheCall : Obligations.CallThenReturnResumesAfterTheCall := by
  unfold Obligations.CallThenReturnResumesAfterTheCall
  intro s nnn hlow hhigh
  have hsp : spUp ((pushFrame s.pc s).withPc (BitVec.ofNat 16 nnn.toNat)).sp = s.sp := spUp_spDown s.sp hlow
  refine ⟨_, _, exec_call nnn hhigh, exec_ret (by rw [hsp]; omega), ?_, hsp⟩
  rw [State.withPc_pc, poppedWord, hsp, State.withPc_mem, pushFrame_mem, Memory.readWord_writeWord _ _ (by omega)]

/-- Settles O36: a frame whose second byte is out of range fails the range check. -/
theorem stackFramePastMemoryFaults : Obligations.StackFramePastMemoryFaults := by
  unfold Obligations.StackFramePastMemoryFaults
  intro s nnn top htop
  have hsp : (spUp s.sp).toNat = top := by rw [toNat_spUp, htop]
  refine ⟨fun h => ?_, fun h => ?_⟩
  · have hbad : ¬ ((Instr.call nnn).access s).ok := by
      simp only [Access.ok, Instr.access, accessOk]
      omega
    exact ⟨_, exec_of_bad hbad, takeMemFault_faultedWith _ _ _⟩
  · have hbad : ¬ (Instr.ret.access s).ok := by
      simp only [Access.ok, Instr.access, accessOk]
      omega
    rw [← hsp]
    exact ⟨_, exec_of_bad hbad, takeMemFault_faultedWith _ _ _⟩

/-- Settles O37: the invariant's bound on sp keeps the frame in range. -/
theorem callNeverFaultsUnderTheInvariant : Obligations.CallNeverFaultsUnderTheInvariant := by
  unfold Obligations.CallNeverFaultsUnderTheInvariant
  rintro s nnn ⟨-, hsp⟩ hvalid
  obtain ⟨-, hle⟩ := hsp hvalid
  exact ⟨_, exec_call nnn (by omega), rfl⟩

/-- Settles O47: the three word accesses of the block are those of `readWord` and `writeWord`, whose bytes are the word's
two, high first. -/
theorem wordsAreBigEndian : Obligations.WordsAreBigEndian := by
  unfold Obligations.WordsAreBigEndian
  refine ⟨fun m a w ha => ?_, fun s nnn => ⟨fun hrun hpc => ?_, fun hsp => ?_, fun hsp => ?_⟩⟩
  · have hread := fun b => m.read_writeWord w b (show a + 2 ≤ 0x1000 by omega)
    refine ⟨m.toNat_readWord a, ?_, ?_, fun b hhigh hlow => ?_⟩
    · simp [hread, toNat_highByte]
    · simp [hread, toNat_lowByte]
    · simp [hread, hhigh, hlow]
  · exact step_of_running hrun (by omega)
  · exact ⟨_, exec_call nnn hsp, rfl⟩
  · have htop : (spUp s.sp).toNat = s.sp.toNat + 2 := by
      rw [toNat_spUp]
      omega
    refine ⟨_, exec_ret (by omega), ?_⟩
    rw [State.withPc_pc, poppedWord, htop]

end Sys2Proof.Machine
end

section
/-! SUPPORT. The block operations at I (42_index_memory.md R143 to R145) and self-modifying code (20_memory.md R59). -/

namespace Sys2Proof.Machine

/-! ## Frames -/

theorem State.changesOnly.mono {s t : State} {W W' : Element → Prop} (h : s.changesOnly t W)
    (hW : ∀ e, W e → W' e) : s.changesOnly t W' :=
  fun e he => h e (mt (hW e) he)

/-- A store at I changes the bytes stored. -/
theorem State.changesOnly_storeAtI (s : State) {bs : List Byte} {n : Nat} (hn : bs.length = n) :
    s.changesOnly (s.storeAtI bs) (fun e => ∃ k, k < n ∧ e = .byte (dataAddr s + k)) := by
  intro e he
  cases e with
  | byte a =>
    by_cases hout : a < s.I.toNat ∨ s.I.toNat + bs.length ≤ a
    · exact read_storeAtI_of_outside s bs hout
    · exact absurd ⟨a - s.I.toNat, by omega, congrArg Element.byte (by rw [dataAddr_eq]; omega)⟩ he
  | _ => rfl

/-- A load from I changes the registers V0..Vx. -/
theorem State.changesOnly_loadBlock (s : State) (x : Reg) :
    s.changesOnly (loadBlock x s) (fun e => ∃ k : Reg, k.val ≤ x.val ∧ e = .v k) := by
  intro e he
  cases e with
  | v r =>
    have hr : ¬ r ≤ x := fun h => he ⟨r, h, rfl⟩
    simp [State.agreeAt, hr]
  | _ => simp [State.agreeAt]

/-! ## What the instructions answer -/

theorem exec_bcd {s : State} (x : Reg) (h : accessOk s.I.toNat 3) :
    exec (.bcd x) s = .next ((s.storeAtI (bcdBytes (s.getV x))).withPc (s.pc + 2)) :=
  exec_of_ok (i := .bcd x) h

theorem exec_storeRegs {s : State} {x : Reg} (h : accessOk s.I.toNat (x.val + 1)) :
    exec (.storeRegs x) s = .next ((s.storeAtI (blockBytes x s)).withPc (s.pc + 2)) :=
  exec_of_ok (i := .storeRegs x) h

theorem exec_loadRegs {s : State} {x : Reg} (h : accessOk s.I.toNat (x.val + 1)) :
    exec (.loadRegs x) s = .next ((loadBlock x s).withPc (s.pc + 2)) :=
  exec_of_ok (i := .loadRegs x) h

/-- An access of some bytes in range ends by 0x1000. -/
theorem end_le_of_accessOk {a n : Nat} (h : accessOk a (n + 1)) : a + (n + 1) ≤ 0x1000 :=
  h.resolve_left n.succ_ne_zero

/-- A stored block holds the registers in order. -/
theorem read_storeAtI_blockBytes {s : State} {x : Reg} (h : accessOk s.I.toNat (x.val + 1)) {k : Reg}
    (hk : k.val ≤ x.val) : (s.storeAtI (blockBytes x s)).mem.read (s.I.toNat + k.val) = s.getV k := by
  have hlen := length_blockBytes x s
  have hin : k.val < (blockBytes x s).length := by omega
  rw [read_storeAtI s _ _ hin (by rw [hlen]; exact end_le_of_accessOk h), ← List.getD_eq_getElem _ 0 hin,
    getD_blockBytes x s k hk]

/-- Settles O46: the three digits are the bytes stored, and the range check covers the three. -/
theorem bcdStoresTheDecimalDigits : Obligations.BcdStoresTheDecimalDigits := by
  unfold Obligations.BcdStoresTheDecimalDigits
  intro s x
  refine ⟨decode_ofNat (i := .bcd x) rfl (toNat_placeX rfl x), fun h => ?_, fun h => ?_⟩
  · have hread := fun k hk => read_storeAtI s (bcdBytes (s.getV x)) k hk (end_le_of_accessOk h)
    have hdigits := toNat_bcdBytes (s.getV x)
    simp only [bcdBytes, List.map_cons, List.cons.injEq] at hdigits
    obtain ⟨hhundreds, htens, hones, -⟩ := hdigits
    refine ⟨_, exec_bcd x h, ?_, ?_, ?_, rfl, (s.changesOnly_storeAtI rfl).withPc _⟩
    · exact (congrArg BitVec.toNat (hread 0 (by simp [bcdBytes]))).trans hhundreds
    · exact (congrArg BitVec.toNat (hread 1 (by simp [bcdBytes]))).trans htens
    · exact (congrArg BitVec.toNat (hread 2 (by simp [bcdBytes]))).trans hones
  · exact ⟨_, exec_of_bad (i := .bcd x) h, takeMemFault_faultedWith _ _ _⟩

/-- Settles O48: the stored block is the registers in order, and the frame is that of a store of x + 1 bytes. -/
theorem storeRegistersWritesV0ToVx : Obligations.StoreRegistersWritesV0ToVx := by
  unfold Obligations.StoreRegistersWritesV0ToVx
  intro s x h
  refine ⟨_, exec_storeRegs h, fun k hk => read_storeAtI_blockBytes h hk, rfl, ?_⟩
  exact ((s.changesOnly_storeAtI (length_blockBytes x s)).mono
    fun e ⟨k, hk, he⟩ => ⟨k, Nat.le_of_lt_succ hk, he⟩).withPc _

/-- Settles O49: the loaded registers are the bytes in order, and no other register is written. -/
theorem loadRegistersReadsV0ToVx : Obligations.LoadRegistersReadsV0ToVx := by
  unfold Obligations.LoadRegistersReadsV0ToVx
  intro s x h
  refine ⟨_, exec_loadRegs h, fun k hk => ?_, by simp, (s.changesOnly_loadBlock x).withPc _⟩
  have hk : k ≤ x := hk
  simp [hk, dataAddr_eq]

/-- Settles O50: the load reads, at the store's unchanged I, the bytes that the store left. -/
theorem loadIsTheInverseOfStore : Obligations.LoadIsTheInverseOfStore := by
  unfold Obligations.LoadIsTheInverseOfStore
  intro s t x regs pc h hexec
  obtain rfl : _ = t := Host.Outcome.next.inj ((exec_storeRegs h).symm.trans hexec)
  refine ⟨_, exec_loadRegs h, fun k hk => ?_⟩
  rw [State.getV_withPc, State.getV_loadBlock, if_pos (Fin.le_def.mpr hk)]
  exact read_storeAtI_blockBytes h hk

/-- Settles O51: each of the three is refused by its range check, in its own start state. -/
theorem blockAccessPastMemoryFaults : Obligations.BlockAccessPastMemoryFaults := by
  unfold Obligations.BlockAccessPastMemoryFaults
  intro s x y n
  refine ⟨fun h => ⟨?_, ?_⟩, fun h => ?_⟩
  · exact ⟨_, exec_of_bad (i := .storeRegs x) h, takeMemFault_faultedWith _ _ _⟩
  · exact ⟨_, exec_of_bad (i := .loadRegs x) h, takeMemFault_faultedWith _ _ _⟩
  · exact ⟨_, execDrw_of_bad x y n s h, takeMemFault_faultedWith _ _ _, rfl⟩

/-- Settles O52: the store's first two bytes, V0 and V1, are the word at the next pc. -/
theorem storeIsSeenByTheNextFetch : Obligations.StoreIsSeenByTheNextFetch := by
  unfold Obligations.StoreIsSeenByTheNextFetch
  intro s x hrun hpc hdecode hI hx h
  have hend := end_le_of_accessOk h
  have hnext : (s.pc + 2).toNat = s.I.toNat := by
    rw [BitVec.toNat_add, hI]
    simp
    omega
  obtain ⟨t, ht⟩ : ∃ t, t = (s.storeAtI (blockBytes x s)).withPc (s.pc + 2) := ⟨_, rfl⟩
  have hrunt : t.running := by rwa [ht]
  have hpct : t.pc.toNat = s.I.toNat := by rwa [ht]
  have hread : ∀ k : Reg, k.val ≤ x.val → t.mem.read (s.I.toNat + k.val) = s.getV k := by
    rw [ht]
    exact fun k hk => read_storeAtI_blockBytes h hk
  have hfirst : t.mem.read s.I.toNat = s.getV 0 := hread 0 x.val.zero_le
  have hsecond : t.mem.read (s.I.toNat + 1) = s.getV 1 := hread 1 hx
  refine ⟨t, ?_, ?_⟩
  · rw [step_of_running hrun hpc, hdecode, exec_storeRegs h, ht]
  · rw [step_of_running hrunt (by omega), hpct, Memory.readWord_eq_ofNat, hfirst, hsecond]

end Sys2Proof.Machine
end

section
/-! SUPPORT. Drawing (43_display.md): the covered cells of the statements, one draw, and a second draw over the first. -/

namespace Sys2Proof.Machine

/-! ## One draw, by the covered cells (R160, R163) -/

section
variable (fb : Framebuffer) (x y : Byte) {rows : List Byte} (hrows : rows.length ≤ 15)
include hrows

theorem drawSprite_cell_of_covers {py : Fin 32} {px : Fin 64} (h : spriteCovers x y rows py px) :
    (drawSprite fb x y rows).fb.cell py px = !fb.cell py px := by
  simp [drawSprite_cell _ _ _ _ (show rows.length ≤ 32 by omega), (spriteCovers_iff ..).mp h]

theorem drawSprite_cell_of_not_covers {py : Fin 32} {px : Fin 64} (h : ¬ spriteCovers x y rows py px) :
    (drawSprite fb x y rows).fb.cell py px = fb.cell py px := by
  simp [drawSprite_cell _ _ _ _ (show rows.length ≤ 32 by omega), mt (spriteCovers_iff ..).mpr h]

theorem drawSprite_collided_iff_covers :
    (drawSprite fb x y rows).collided = true ↔
      ∃ py px, spriteCovers x y rows py px ∧ fb.cell py px = true := by
  rw [drawSprite_collided _ _ _ _ (by omega), Prod.exists]
  simp only [spriteCovers_iff]

/-- A second draw at the same place inverts the same cells back (R168). -/
theorem drawSprite_drawSprite_fb : (drawSprite (drawSprite fb x y rows).fb x y rows).fb = fb := by
  refine Framebuffer.ext_cell fun py px => ?_
  by_cases h : spriteCovers x y rows py px
  · rw [drawSprite_cell_of_covers _ _ _ hrows h, drawSprite_cell_of_covers _ _ _ hrows h, Bool.not_not]
  · rw [drawSprite_cell_of_not_covers _ _ _ hrows h, drawSprite_cell_of_not_covers _ _ _ hrows h]

/-- A second draw collides with the cells that the first one set (R168). -/
theorem drawSprite_drawSprite_collided :
    (drawSprite (drawSprite fb x y rows).fb x y rows).collided = true ↔
      ∃ py px, spriteCovers x y rows py px ∧ fb.cell py px = false := by
  rw [drawSprite_collided_iff_covers _ _ _ hrows]
  refine exists_congr fun py => exists_congr fun px => and_congr_right fun h => ?_
  rw [drawSprite_cell_of_covers _ _ _ hrows h, Bool.not_eq_true']

end

/-- Settles O54: a cell turns from 1 to 0 exactly where a covered cell was 1. -/
theorem drawSpriteXorsAndReportsCollision : Obligations.DrawSpriteXorsAndReportsCollision := by
  unfold Obligations.DrawSpriteXorsAndReportsCollision
  intro fb x y rows hrows
  refine ⟨fun py px => ⟨drawSprite_cell_of_covers fb x y hrows, drawSprite_cell_of_not_covers fb x y hrows⟩, ?_⟩
  rw [drawSprite_collided_iff_covers fb x y hrows]
  refine exists_congr fun py => exists_congr fun px => ?_
  by_cases h : spriteCovers x y rows py px
  · simp [drawSprite_cell_of_covers fb x y hrows h, h]
  · simp [drawSprite_cell_of_not_covers fb x y hrows h, h]

/-! ## DRW (R166) -/

theorem flagByte_eq_one_iff (c : Bool) : flagByte c = 1 ↔ c = true := by
  cases c <;> decide

theorem State.changesOnly_setFb_setFlag (s : State) (fb : Framebuffer) (c : Bool) :
    s.changesOnly ((s.setFb fb).setFlag c) (fun e => e = .v VF ∨ ∃ py px, e = .cell py px) := by
  intro e he
  cases e with
  | v r =>
    have hr : r ≠ VF := fun h => he (.inl (congrArg Element.v h))
    simp [State.agreeAt, hr]
  | cell py px => exact absurd (.inr ⟨py, px, rfl⟩) he
  | _ => rfl

theorem exec_drw {s : State} (x y : Reg) {n : RowCount} (h : accessOk s.I.toNat n.val) :
    exec (.drw x y n) s = .next ((Instr.drw x y n).result s) :=
  exec_of_ok (i := .drw x y n) h

theorem length_spriteRows (s : State) (n : RowCount) : (s.mem.readBytes (dataAddr s) n.val).length ≤ 15 := by
  rw [Memory.length_readBytes]
  omega

theorem result_drw_fb (s : State) (x y : Reg) (n : RowCount) :
    ((Instr.drw x y n).result s).fb = (drawnCanvas x y n s).fb := rfl

theorem result_drw_VF (s : State) (x y : Reg) (n : RowCount) :
    ((Instr.drw x y n).result s).getV VF = flagByte (drawnCanvas x y n s).collided := by
  simp [Instr.result, Instr.effect]

/-- Settles O55: one draw at the old V[X] and V[Y], its collision bit written to VF. -/
theorem drawInvertsTheCoveredCells : Obligations.DrawInvertsTheCoveredCells := by
  unfold Obligations.DrawInvertsTheCoveredCells
  intro s x y n h
  have hrows := length_spriteRows s n
  refine ⟨_, exec_drw x y h, fun py px => ⟨?_, ?_⟩, ?_, ?_, rfl, (s.changesOnly_setFb_setFlag _ _).withPc _⟩
  · exact drawSprite_cell_of_covers _ _ _ hrows
  · exact drawSprite_cell_of_not_covers _ _ _ hrows
  · rw [result_drw_VF]
    exact flagByte_le_one _
  · rw [result_drw_VF, flagByte_eq_one_iff]
    exact drawSprite_collided_iff_covers _ _ _ hrows

/-- A second DRW whose registers hold the first one's coordinates (R168). -/
theorem exec_drw_again {s : State} {x y : Reg} {n : RowCount} {regs : Vector Byte 16} (h : accessOk s.I.toNat n.val)
    (hx : regs[x] = s.getV x) (hy : regs[y] = s.getV y) :
    ∃ u, exec (.drw x y n) { (Instr.drw x y n).result s with V := regs } = .next u ∧ u.fb = s.fb ∧
      (u.getV VF = 1 ↔
        ∃ py px, spriteCovers (s.getV x) (s.getV y) (s.mem.readBytes s.I.toNat n.val) py px ∧
          s.fb.cell py px = false) := by
  have hrows := length_spriteRows s n
  have hcanvas : drawnCanvas x y n { (Instr.drw x y n).result s with V := regs } =
      drawSprite (drawnCanvas x y n s).fb (s.getV x) (s.getV y) (s.mem.readBytes (dataAddr s) n.val) := by
    rw [← hx, ← hy]
    rfl
  refine ⟨_, exec_drw x y h, ?_, ?_⟩
  · rw [result_drw_fb, hcanvas]
    exact drawSprite_drawSprite_fb _ _ _ hrows
  · rw [result_drw_VF, hcanvas, flagByte_eq_one_iff]
    exact drawSprite_drawSprite_collided _ _ _ hrows

/-- Settles O57: a second draw over the first, with the coordinates given. -/
theorem redrawingAtTheSamePlaceRestoresTheFramebuffer : Obligations.RedrawingAtTheSamePlaceRestoresTheFramebuffer := by
  unfold Obligations.RedrawingAtTheSamePlaceRestoresTheFramebuffer
  intro s x y n regs h hx hy
  obtain ⟨u, hu⟩ := exec_drw_again h hx hy
  exact ⟨_, u, exec_drw x y h, hu⟩

/-- Settles O56: the first draw writes no register but VF, so the second finds its coordinates again. -/
theorem drawingTwiceRestoresTheFramebuffer : Obligations.DrawingTwiceRestoresTheFramebuffer := by
  unfold Obligations.DrawingTwiceRestoresTheFramebuffer
  intro s x y n h hx hy
  have hkeep : ∀ r, r ≠ VF → ((Instr.drw x y n).result s).V[r] = s.getV r := fun r hr =>
    effect_getV (i := .drw x y n) (beq_false_of_ne hr)
  obtain ⟨u, hu⟩ := exec_drw_again h (hkeep x hx) (hkeep y hy)
  exact ⟨_, u, exec_drw x y h, hu⟩

end Sys2Proof.Machine
end

section
/-! SUPPORT. The transactions other than `step` (10_state.md R25, R28, R29; 70_reset_and_hazards.md §1): what each leaves
in and outside the fault stop, and after `init`. -/

namespace Sys2Proof.Machine

/-! ## In and outside the fault stop -/

theorem State.softReset_of_faulted {s : State} (h : s.FAULT.valid = true) : s.softReset = s := if_pos h

theorem State.setPc_of_faulted {s : State} (h : s.FAULT.valid = true) (a : Word) : s.setPc a = s := if_pos h

theorem State.setPc_of_not_faulted {s : State} (h : s.FAULT.valid = false) (a : Word) : s.setPc a = s.withPc a :=
  if_neg (Bool.eq_false_iff.mp h)

theorem State.timerWrite_of_faulted {s : State} (h : s.FAULT.valid = true) (dt st : Byte) :
    s.timerWrite dt st = s := if_pos h

theorem State.timerWrite_of_not_faulted {s : State} (h : s.FAULT.valid = false) (dt st : Byte) :
    s.timerWrite dt st = (s.setDT dt).setST st := if_neg (Bool.eq_false_iff.mp h)

/-- In the fault stop no transaction but `init` changes anything (60_exceptions.md R202; log 10). -/
theorem transact_of_faulted {agent : Config.TimerAgent} {x : Transaction} {s t : State} (hvalid : s.FAULT.valid = true)
    (hinit : ∀ rom, x ≠ .init rom) (h : transact agent x s = .next t) : t = s := by
  cases x with
  | init rom => exact absurd rfl (hinit rom)
  | step => exact Host.Outcome.next.inj (h.symm.trans (step_of_stopped (.inr hvalid)))
  | reset => exact (Host.Outcome.next.inj h).symm.trans (State.softReset_of_faulted hvalid)
  | setPc a => exact (Host.Outcome.next.inj h).symm.trans (State.setPc_of_faulted hvalid a)
  | timerWrite dt st =>
    cases agent with
    | absent => cases h
    | external => exact (Host.Outcome.next.inj h).symm.trans (State.timerWrite_of_faulted hvalid dt st)

/-- Outside the fault stop the transactions other than `init` and `step` have one effect each. -/
theorem transact_of_not_faulted {agent : Config.TimerAgent} {x : Transaction} {s t : State}
    (hvalid : s.FAULT.valid = false) (hinit : ∀ rom, x ≠ .init rom) (hstep : x ≠ .step)
    (h : transact agent x s = .next t) :
    (x = .reset ∧ t = { s with pc := 0x200, sp := 0x1FE, fb := Framebuffer.clear, HALT := false }) ∨
      (∃ a, t = s.withPc a) ∨ ∃ dt st, t = (s.setDT dt).setST st := by
  cases x with
  | init rom => exact absurd rfl (hinit rom)
  | step => exact absurd rfl hstep
  | reset => exact .inl ⟨rfl, (Host.Outcome.next.inj h).symm.trans (State.softReset_of_not_faulted hvalid)⟩
  | setPc a => exact .inr (.inl ⟨a, (Host.Outcome.next.inj h).symm.trans (State.setPc_of_not_faulted hvalid a)⟩)
  | timerWrite dt st =>
    cases agent with
    | absent => cases h
    | external =>
      have ht := (Host.Outcome.next.inj h).symm.trans (State.timerWrite_of_not_faulted hvalid dt st)
      exact .inr (.inr ⟨dt, st, ht⟩)

/-! ## The invariant -/

/-- Settles O11: no cell is listed, and sp is 0x1FE. -/
theorem resetMeetsTheInvariant : Obligations.ResetMeetsTheInvariant := by
  unfold Obligations.ResetMeetsTheInvariant
  exact ⟨rfl, fun _ => by decide⟩

/-- Both resets set sp to a value that the invariant allows. -/
theorem State.Inv_of_reset_sp {s : State} (hmem : s.mem.wf = true) (hsp : s.sp = 0x1FE) : s.Inv :=
  ⟨hmem, fun _ => by rw [hsp]; decide⟩

theorem State.init_Inv (s : State) (rom : List Byte) : (s.init rom).Inv := by
  obtain ⟨-, h⟩ | ⟨-, h⟩ := s.init_cases rom
  · rw [h]
    exact State.Inv_of_reset_sp (Memory.wf_writeBytes (m := []) rfl _ _) rfl
  · rw [h]
    exact takeMemFault_Inv _ _ _

/-- Settles O12: `init` meets the invariant from any state, a reset sets sp to 0x1FE, and the others write neither sp nor
memory. -/
theorem hostTransactionsKeepTheInvariant : Obligations.HostTransactionsKeepTheInvariant := by
  unfold Obligations.HostTransactionsKeepTheInvariant
  intro agent x s t hinv hx h
  have ⟨hmem, _⟩ := hinv
  by_cases hinit : ∃ rom, x = .init rom
  · obtain ⟨rom, rfl⟩ := hinit
    obtain rfl : s.init rom = t := Host.Outcome.next.inj h
    exact s.init_Inv rom
  · have hinit : ∀ rom, x ≠ .init rom := not_exists.mp hinit
    cases hvalid : s.FAULT.valid with
    | true => rwa [transact_of_faulted hvalid hinit h]
    | false =>
      obtain ⟨-, rfl⟩ | ⟨a, rfl⟩ | ⟨dt, st, rfl⟩ := transact_of_not_faulted hvalid hinit hx h
      · exact State.Inv_of_reset_sp hmem rfl
      · exact hinv
      · exact hinv

/-! ## Leaving the fault stop and HALT -/

/-- Settles O19: transaction by transaction, the fault stop ignores it. -/
theorem faultStopIsLeftOnlyByInit : Obligations.FaultStopIsLeftOnlyByInit := by
  unfold Obligations.FaultStopIsLeftOnlyByInit
  exact fun agent x s t hvalid hinit h => transact_of_faulted hvalid hinit h

/-- Settles O20: a step of a halted block changes nothing, and `set_pc` and `timer_write` do not write HALT. -/
theorem haltIsLeftOnlyByResetOrInit : Obligations.HaltIsLeftOnlyByResetOrInit := by
  unfold Obligations.HaltIsLeftOnlyByResetOrInit
  intro agent x s t hhalt hreset hinit h
  by_cases hstep : x = .step
  · subst hstep
    rwa [Host.Outcome.next.inj (h.symm.trans (step_of_stopped (.inl hhalt)))]
  · cases hvalid : s.FAULT.valid with
    | true => rwa [transact_of_faulted hvalid hinit h]
    | false =>
      obtain ⟨hx, -⟩ | ⟨a, rfl⟩ | ⟨dt, st, rfl⟩ := transact_of_not_faulted hvalid hinit hstep h
      · exact absurd hx hreset
      · exact hhalt
      · exact hhalt

/-! ## `reset`, `set_pc` and `timer_write` -/

/-- Settles O17: the four elements a soft reset sets, and its frame. -/
theorem softResetValues : Obligations.SoftResetValues := by
  unfold Obligations.SoftResetValues
  refine fun agent s => ⟨fun hvalid => ?_, fun hvalid => ?_⟩
  · exact congrArg Host.Outcome.next (State.softReset_of_faulted hvalid)
  · refine ⟨_, congrArg Host.Outcome.next (State.softReset_of_not_faulted hvalid), rfl, rfl,
      Framebuffer.cell_clear, rfl, fun e he => ?_⟩
    cases e with
    | pc => exact absurd (.inl rfl) he
    | sp => exact absurd (.inr (.inl rfl)) he
    | halt => exact absurd (.inr (.inr (.inl rfl))) he
    | cell y x => exact absurd (.inr (.inr (.inr ⟨y, x, rfl⟩))) he
    | _ => rfl

/-- Settles O18: the state with pc set is stopped, running with a word to fetch, or running with none. -/
theorem setPcSetsOnlyPc : Obligations.SetPcSetsOnlyPc := by
  unfold Obligations.SetPcSetsOnlyPc
  intro agent s addr hvalid
  refine ⟨s.withPc addr, congrArg Host.Outcome.next (State.setPc_of_not_faulted hvalid addr), rfl,
    s.changesOnly_withPc addr, fun hhalt => ?_, fun hhalt hlow => ?_, fun hhalt hhigh => ?_⟩
  · exact step_of_stopped (.inl hhalt)
  · exact step_of_running ⟨hhalt, hvalid⟩ (Nat.le_of_lt_succ hlow)
  · exact ⟨_, step_of_bad_pc ⟨hhalt, hvalid⟩ hhigh, takeMemFault_faultedWith _ _ _⟩

/-- Settles O21: the refusal without a port, and with it the two timers and no other element. -/
theorem timerWritePort : Obligations.TimerWritePort := by
  unfold Obligations.TimerWritePort
  refine fun s dt st => ⟨rfl, fun hvalid => ?_⟩
  refine ⟨_, congrArg Host.Outcome.next (State.timerWrite_of_not_faulted hvalid dt st), rfl, rfl, fun e he => ?_⟩
  cases e with
  | dt => exact absurd (.inl rfl) he
  | st => exact absurd (.inr rfl) he
  | _ => rfl

/-! ## `init` (10_state.md R28; 70_reset_and_hazards.md R230) -/

/-- The program region holds as much of the ROM as fits. -/
theorem State.read_loadRom_rom (s : State) (rom : List Byte) {k : Nat} (hk : k < rom.length) (hfit : k < 0xE00) :
    (s.loadRom rom).mem.read (0x200 + k) = rom.getD k 0 := by
  have hlen : k < (rom.take 0xE00).length := by
    rw [List.length_take]
    omega
  rw [State.read_loadRom, if_pos ⟨by omega, by omega⟩, Nat.add_sub_cancel_left, List.getD_eq_getElem _ _ hlen,
    List.getD_eq_getElem _ _ hk, List.getElem_take]

/-- A byte outside the ROM is at its power-on value. -/
theorem State.read_loadRom_of_outside (s : State) (rom : List Byte) {a : Nat}
    (h : a < 0x200 ∨ 0x200 + rom.length ≤ a) : (s.loadRom rom).mem.read a = Memory.unlisted a := by
  rw [State.read_loadRom, if_neg]
  rw [List.length_take]
  omega

/-- Settles O14: the ROM, the font below 0x200 and the zeros, region by region. -/
theorem powerOnValues : Obligations.PowerOnValues := by
  unfold Obligations.PowerOnValues
  refine ⟨rfl, fun agent s rom hfit => ?_⟩
  have hinit : s.init rom = s.loadRom rom := if_pos hfit
  have hbase := Config.fontBase.isLt
  refine ⟨s.loadRom rom, congrArg Host.Outcome.next hinit, fun r => ?_, rfl, rfl, rfl, rfl, rfl,
    Framebuffer.cell_clear, rfl, rfl, rfl, rfl, fun k hk => ?_, fun k => ?_, fun a _ hrom hfont => ?_⟩
  · simp [State.getV]
  · exact s.read_loadRom_rom rom hk (by omega)
  · rw [s.read_loadRom_of_outside rom (.inl (by omega)), Memory.unlisted_font]
  · rw [s.read_loadRom_of_outside rom hrom, Memory.unlisted_of_outside hfont]

/-- Settles O16: a ROM too long has filled the program region in the state that takes the fault. -/
theorem oversizedRomFaults : Obligations.OversizedRomFaults := by
  unfold Obligations.OversizedRomFaults
  intro agent s rom hlong
  have hinit : s.init rom = takeMemFault .load 0x1000 (s.loadRom rom) := if_neg (Nat.not_le.mpr hlong)
  exact ⟨_, congrArg Host.Outcome.next hinit, rfl, rfl, rfl, fun k hk => s.read_loadRom_rom rom (by omega) hk⟩

end Sys2Proof.Machine
end

section
/-! SUPPORT. The host's ticks (60_exceptions.md R208 to R212; log 15). -/

namespace Sys2Proof.Machine

theorem stepBlock_eq {s t : State} (h : step s = .next t) : stepBlock s = t := by
  simp only [stepBlock, h]

/-! ## One tick (R208) -/

/-- A breakpoint at the block's pc pauses a host that drains no command. -/
theorem Scheduler.tick_nil_of_breakpoint {h : Scheduler} (hrun : h.run ≠ .terminated) (hstop : h.stopping = false)
    (hbreak : h.block.pc.toNat ∈ h.breaks) :
    h.tick [] = { h with run := .paused, single := false, skip := false } := by
  simp [Scheduler.tick, Scheduler.breakpointCheck, Scheduler.executeOne, hrun, hstop, hbreak]

/-- The breakpoint check leaves a paused host paused, and its block. -/
theorem Scheduler.breakpointCheck_of_paused {h : Scheduler} (hrun : h.run = .paused) :
    ∃ single, h.breakpointCheck = { h with single := single } := by
  by_cases hbreak : h.block.pc.toNat ∈ h.breaks
  · exact ⟨false, by simp [Scheduler.breakpointCheck, hbreak, hrun]⟩
  · exact ⟨h.single, by simp [Scheduler.breakpointCheck, hbreak]⟩

/-- A Step drained in Paused executes one step, and the host is Paused or Halted after it (R211). -/
theorem Scheduler.tick_step_of_paused {h : Scheduler} (hrun : h.run = .paused) (hskip : h.skip = false)
    (hstop : h.stopping = false) :
    (h.tick [.step]).block = stepBlock h.block ∧
      (h.tick [.step]).run = if (stepBlock h.block).HALT then .halted else .paused := by
  obtain ⟨single, hcheck⟩ := Scheduler.breakpointCheck_of_paused hrun
  simp [Scheduler.tick, hcheck, Scheduler.command, Scheduler.executeOne, State.halted, hrun, hskip, hstop]

/-- A Continue drained in Paused executes the tick's step. -/
theorem Scheduler.tick_continue_of_paused {h : Scheduler} (hrun : h.run = .paused) (hskip : h.skip = false)
    (hstop : h.stopping = false) : (h.tick [.continue_]).block = stepBlock h.block := by
  obtain ⟨single, hcheck⟩ := Scheduler.breakpointCheck_of_paused hrun
  simp [Scheduler.tick, hcheck, Scheduler.command, Scheduler.executeOne, hrun, hskip, hstop]

/-- Settles O60: the tick's one step is the block's. -/
theorem hostStepExecutesExactlyOneStep : Obligations.HostStepExecutesExactlyOneStep := by
  unfold Obligations.HostStepExecutesExactlyOneStep
  intro h hrun hskip hstop
  obtain ⟨t, ht⟩ := everyStepAnswersNext h.block
  obtain ⟨hblock, hrun'⟩ := Scheduler.tick_step_of_paused hrun hskip hstop
  rw [stepBlock_eq ht] at hblock hrun'
  exact ⟨t, ht, hblock, hrun'⟩

/-! ## Breakpoints (R212) -/

theorem mem_toggleBreakpoint (a b : Nat) (breaks : List Nat) :
    b ∈ toggleBreakpoint a breaks ↔ (b ≠ a ∧ b ∈ breaks) ∨ (b = a ∧ a ∉ breaks) := by
  by_cases ha : a ∈ breaks
  · simp [toggleBreakpoint, ha, and_comm]
  · by_cases hb : b = a
    · simp [toggleBreakpoint, ha, hb]
    · simp [toggleBreakpoint, ha, hb]

/-- Settles O59: membership after a toggle; and a host paused by a breakpoint executes the block's step at the next Step
or Continue, whatever the breakpoint check of that tick does. -/
theorem breakpointsToggleAndPauseAtTickEntry : Obligations.BreakpointsToggleAndPauseAtTickEntry := by
  unfold Obligations.BreakpointsToggleAndPauseAtTickEntry
  refine ⟨fun a b breaks => ⟨mem_toggleBreakpoint a b breaks, ?_⟩, fun h hrun hstop hbreak => ?_⟩
  · simp only [mem_toggleBreakpoint]
    by_cases hb : b = a
    · simp [hb]
    · simp [hb]
  · obtain ⟨t, ht⟩ := everyStepAnswersNext h.block
    let paused : Scheduler := { h with run := .paused, single := false, skip := false }
    obtain ⟨hstep, -⟩ := Scheduler.tick_step_of_paused (h := paused) rfl rfl hstop
    have hcontinue := Scheduler.tick_continue_of_paused (h := paused) rfl rfl hstop
    rw [Scheduler.tick_nil_of_breakpoint hrun hstop hbreak]
    exact ⟨rfl, rfl, t, ht, hstep.trans (stepBlock_eq ht), hcontinue.trans (stepBlock_eq ht)⟩

end Sys2Proof.Machine
end
